-- ==== Sys2Proof/Word.lean ====
section
/-! DEFINITION. The word types of BBR: bytes, 64-bit offsets, addresses and tokens, 32-bit block addresses,
16-bit block counts (00_scope R9, R14, R17, R21). -/

namespace Sys2Proof

/-- A byte (00_scope R21). -/
abbrev Byte := BitVec 8

/-- A byte offset, length, delta or device byte address: `OFFW = 64` bits, unsigned (00_scope R14). -/
abbrev Offset := BitVec 64

/-- The opaque path token of OPEN: `PATHW = 64` bits (00_scope R17). -/
abbrev Path := BitVec 64

/-- A logical block address: `LBA_BITS = 32` (00_scope R9). -/
abbrev Lba := BitVec 32

/-- A block transfer count: `CNT_BITS = 16` (00_scope R9). -/
abbrev Count := BitVec 16

/-- The largest block address a command can carry, `2^32 - 1` (40_command_encoder R122). -/
def maxLba : Nat := 2 ^ 32 - 1

/-- The largest block count a command can carry, 65535 (40_command_encoder R122). -/
def maxCount : Nat := 65535

/-- The largest 64-bit offset, `2^64 - 1` (00_scope R14). -/
def maxOffset : Nat := 2 ^ 64 - 1

end Sys2Proof
end

