-- ==== Sys2Proof/Config.lean ====
section
/-! DEFINITION. The implementation parameters of 00_scope section 4 as one record. The spec makes each of them "a
named argument of the model with a default": the machine carries the record in its state and no step changes it
(log 1), so a statement about every state holds for every instance. -/

namespace Sys2Proof

/-- `RECORD_ORDER`: the byte order of decoded fields (00_scope R12). -/
inductive RecordOrder where
  /-- least significant byte at the lowest offset -/
  | le
  /-- most significant byte at the lowest offset -/
  | be
  deriving DecidableEq, Repr

/-- The parameters the spec leaves open (00_scope R10 to R16, 92_eei_decisions "Parameters left open"). -/
structure Config where
  /-- `BS`, bytes per device block (R10) -/
  bs : Nat
  /-- `OPC`, value of command byte 0 (R11) -/
  opc : Byte
  /-- `RECORD_ORDER` (R12) -/
  recordOrder : RecordOrder
  /-- `EXT_FLAG`, flag byte of the buffer's own extension reads (R13) -/
  extFlag : Byte
  /-- `NVIEWS`, number of view slots (R15) -/
  nviews : Nat
  /-- `ARENA_CAP`, largest legal `mlen`; `none` is `inf` (R16) -/
  arenaCap : Option Nat
  deriving DecidableEq, Repr

/-- The range each parameter has (92_eei_decisions "Parameters left open"): `BS` positive, `NVIEWS` from 1 to 256,
`ARENA_CAP` a multiple of `BS` or `inf`. -/
def Config.wf (c : Config) : Bool :=
  decide (0 < c.bs) && decide (1 ≤ c.nviews) && decide (c.nviews ≤ 256) &&
    (match c.arenaCap with
     | none => true
     | some cap => decide (cap % c.bs = 0))

/-- "This hardware": the instance the spec describes when the model is given no argument (00_scope section 4). The
value of `opc` is PRESUMED: "from general knowledge, not in source" (R11; log 2). No statement rests on it. -/
def Config.thisHardware : Config :=
  { bs := 512, opc := 0x28, recordOrder := .le, extFlag := 0x00, nviews := 4, arenaCap := none }

end Sys2Proof
end

