-- ==== Sys2Proof/Syntax.lean ====
section
/-! DEFINITION. The operations of BBR: one constructor per row of the opcode table, fifteen host operations
(30_encoding R100) and the device read command READ10 (30_encoding R91). Only the fields an operation uses are
operands (R99); `a` and `b` stay 64 bits wide so that an out-of-range value can be presented and refused (R98). -/

namespace Sys2Proof

/-- One operation with its operands (30_encoding R91, R100). -/
inductive Instr where
  /-- ENC: `a` = lba, `b` = block_count, flag (40_command_encoder R121) -/
  | enc (lba count : Offset) (flag : Byte)
  /-- OPEN: `a` = path token (41_device_channel R145) -/
  | openDev (path : Path)
  /-- CLOSE (41_device_channel R150) -/
  | closeDev
  /-- RDBLK: `a` = lba, `b` = block_count, flag (41_device_channel R155) -/
  | rdblk (lba count : Offset) (flag : Byte)
  /-- BINIT: `vd`, `a` = abs, `b` = rel (42_block_buffer R171) -/
  | binit (vd : Byte) (anchor rel : Offset)
  /-- DERIVE: `vd`, `vs`, `a` = extra_relative_offset (42_block_buffer R175) -/
  | derive (vd vs : Byte) (extra : Offset)
  /-- ADV: `vd`, `a` = offset_delta (42_block_buffer R179) -/
  | adv (vd : Byte) (delta : Offset)
  /-- RDB: `vs`, `a` = offset, `b` = length (42_block_buffer R182) -/
  | rdb (vs : Byte) (offset length : Offset)
  /-- U8: `vs`, `a` = offset (43_field_accessors R212) -/
  | u8 (vs : Byte) (offset : Offset)
  /-- I8 (43_field_accessors R213) -/
  | i8 (vs : Byte) (offset : Offset)
  /-- U16 (43_field_accessors R214) -/
  | u16 (vs : Byte) (offset : Offset)
  /-- I16 (43_field_accessors R215) -/
  | i16 (vs : Byte) (offset : Offset)
  /-- U32 (43_field_accessors R216) -/
  | u32 (vs : Byte) (offset : Offset)
  /-- I32 (43_field_accessors R217) -/
  | i32 (vs : Byte) (offset : Offset)
  /-- TXT: `vs`, `a` = offset, `b` = length (43_field_accessors R218) -/
  | txt (vs : Byte) (offset length : Offset)
  /-- READ10: the command on the device port, flag, lba, count (30_encoding R91, R94: one flag, at two offsets) -/
  | read10 (flag : Byte) (lba : Lba) (count : Count)
  deriving DecidableEq, Repr

/-- The mnemonic of each operation, as the table has it (00_scope R27). -/
def Instr.mnemonic : Instr → String
  | .enc _ _ _ => "ENC"
  | .openDev _ => "OPEN"
  | .closeDev => "CLOSE"
  | .rdblk _ _ _ => "RDBLK"
  | .binit _ _ _ => "BINIT"
  | .derive _ _ _ => "DERIVE"
  | .adv _ _ => "ADV"
  | .rdb _ _ _ => "RDB"
  | .u8 _ _ => "U8"
  | .i8 _ _ => "I8"
  | .u16 _ _ => "U16"
  | .i16 _ _ => "I16"
  | .u32 _ _ => "U32"
  | .i32 _ _ => "I32"
  | .txt _ _ _ => "TXT"
  | .read10 _ _ _ => "READ10"

/-- `ENC lba, count`: the omitted flag is 0 (30_encoding R106, R107 (a)). -/
def Instr.encDefault (lba count : Offset) : Instr := .enc lba count 0

/-- `RDBLK lba, count`: the omitted flag is 0 (30_encoding R106, R107 (a)). -/
def Instr.rdblkDefault (lba count : Offset) : Instr := .rdblk lba count 0

/-- `BINIT vD, abs`: the omitted rel is 0 (30_encoding R106). -/
def Instr.binitDefault (vd : Byte) (anchor : Offset) : Instr := .binit vd anchor 0

/-- The written form of an operation: mnemonic, then operands, comma separated, views as `v0`, `v1`, numbers in
decimal (30_encoding R106). READ10 is no host operation and has only the model's own written form. -/
def Instr.asm (i : Instr) : String :=
  let view (v : Byte) : String := "v" ++ toString v.toNat
  let num {n : Nat} (x : BitVec n) : String := toString x.toNat
  let line (operands : List String) : String :=
    if operands.isEmpty then i.mnemonic else i.mnemonic ++ " " ++ String.intercalate ", " operands
  match i with
  | .enc lba count flag => line [num lba, num count, num flag]
  | .openDev path => line [num path]
  | .closeDev => line []
  | .rdblk lba count flag => line [num lba, num count, num flag]
  | .binit vd anchor rel => line [view vd, num anchor, num rel]
  | .derive vd vs extra => line [view vd, view vs, num extra]
  | .adv vd delta => line [view vd, num delta]
  | .rdb vs offset length => line [view vs, num offset, num length]
  | .u8 vs offset => line [view vs, num offset]
  | .i8 vs offset => line [view vs, num offset]
  | .u16 vs offset => line [view vs, num offset]
  | .i16 vs offset => line [view vs, num offset]
  | .u32 vs offset => line [view vs, num offset]
  | .i32 vs offset => line [view vs, num offset]
  | .txt vs offset length => line [view vs, num offset, num length]
  | .read10 flag lba count => line [num lba, num count, num flag]

end Sys2Proof
end

