-- ==== Sys2Proof/WellFormed.lean ====
section
/-! DEFINITION. Which operations an instance accepts: every view index an operation uses is below `NVIEWS`
(30_encoding R102). Everything else about an operand is a matter of its meaning (a value out of range is presented and
refused, R98), and the command's field widths are those of its operands. -/

namespace Sys2Proof

/-- A view index names a slot (30_encoding R102). -/
def viewIndexOk (c : Config) (v : Byte) : Bool := decide (v.toNat < c.nviews)

/-- The used view indices of an operation are in range (30_encoding R100, R102). -/
def Instr.wf (c : Config) : Instr → Bool
  | .enc _ _ _ => true
  | .openDev _ => true
  | .closeDev => true
  | .rdblk _ _ _ => true
  | .binit vd _ _ => viewIndexOk c vd
  | .derive vd vs _ => viewIndexOk c vd && viewIndexOk c vs
  | .adv vd _ => viewIndexOk c vd
  | .rdb vs _ _ => viewIndexOk c vs
  | .u8 vs _ => viewIndexOk c vs
  | .i8 vs _ => viewIndexOk c vs
  | .u16 vs _ => viewIndexOk c vs
  | .i16 vs _ => viewIndexOk c vs
  | .u32 vs _ => viewIndexOk c vs
  | .i32 vs _ => viewIndexOk c vs
  | .txt vs _ _ => viewIndexOk c vs
  | .read10 _ _ _ => true

end Sys2Proof
end

