-- ==== Sys2Proof/Decode.lean ====
section
/-! DEFINITION. The two encodings BBR has: the host request HREQ (30_encoding R97, R100) and the device read command
CDB10 (30_encoding R91, R92), a decoder of both that is total and rejects by name, and the encoder written from the
same tables. The decoder reads no state (R103); the only parameter it reads is `OPC`, byte 0 of every command. -/

namespace Sys2Proof

/-- The six fields of a host request (30_encoding R97). -/
structure Hreq where
  op : Byte
  vd : Byte
  vs : Byte
  flag : Byte
  a : Offset
  b : Offset
  deriving DecidableEq, Repr

/-- What an instruction is stored as: the 160-bit packing of a host request, or the bytes of a device command, byte 0
first (30_encoding R91, R97; 00_scope R21). -/
inductive InstrWord where
  | hreq (w : BitVec 160)
  | cdb10 (bytes : List Byte)
  deriving DecidableEq, Repr

/-- Why a word spells no operation. -/
inductive DecodeRefusal where
  /-- an `op` that 30_encoding R100 does not list (R101) -/
  | reservedOp (op : Byte)
  /-- not 10 bytes (R90) -/
  | commandLength (n : Nat)
  /-- byte 0 is not `OPC` (R95) -/
  | commandOpcode (byte0 : Byte)
  /-- bytes 1 and 6 differ (R94) -/
  | commandFlags (flag1 flag6 : Byte)
  /-- byte 9 is not zero (R95) -/
  | commandControl (byte9 : Byte)
  deriving DecidableEq, Repr

/-- The fields of the packing `op ∥ vd ∥ vs ∥ flag ∥ a ∥ b` (30_encoding R97). -/
def Hreq.unpack (w : BitVec 160) : Hreq :=
  { op := w.extractLsb' 152 8
    vd := w.extractLsb' 144 8
    vs := w.extractLsb' 136 8
    flag := w.extractLsb' 128 8
    a := w.extractLsb' 64 64
    b := w.extractLsb' 0 64 }

/-- The packing `op ∥ vd ∥ vs ∥ flag ∥ a ∥ b` (30_encoding R97). -/
def Hreq.pack (h : Hreq) : BitVec 160 :=
  h.op ++ h.vd ++ h.vs ++ h.flag ++ h.a ++ h.b

/-- The operation map (30_encoding R100); every other `op` is reserved (R101). -/
def Hreq.decode (h : Hreq) : Except DecodeRefusal Instr :=
  match h.op.toNat with
  | 0x01 => .ok (.enc h.a h.b h.flag)
  | 0x02 => .ok (.openDev h.a)
  | 0x03 => .ok .closeDev
  | 0x04 => .ok (.rdblk h.a h.b h.flag)
  | 0x08 => .ok (.binit h.vd h.a h.b)
  | 0x09 => .ok (.derive h.vd h.vs h.a)
  | 0x0A => .ok (.adv h.vd h.a)
  | 0x0B => .ok (.rdb h.vs h.a h.b)
  | 0x10 => .ok (.u8 h.vs h.a)
  | 0x11 => .ok (.i8 h.vs h.a)
  | 0x12 => .ok (.u16 h.vs h.a)
  | 0x13 => .ok (.i16 h.vs h.a)
  | 0x14 => .ok (.u32 h.vs h.a)
  | 0x15 => .ok (.i32 h.vs h.a)
  | 0x18 => .ok (.txt h.vs h.a h.b)
  | _ => .error (.reservedOp h.op)

/-- Reading a device command by its layout (30_encoding R91): opcode, flag, block address big-endian, flag again,
count big-endian, zero. BBR never does this itself (R90); the model does, on the device port (log 8). -/
def decodeCommand (opc : Byte) (bytes : List Byte) : Except DecodeRefusal Instr :=
  match bytes with
  | [op, flag1, l3, l2, l1, l0, flag6, c1, c0, control] =>
    if op ≠ opc then .error (.commandOpcode op)
    else if flag1 ≠ flag6 then .error (.commandFlags flag1 flag6)
    else if control ≠ 0 then .error (.commandControl control)
    else .ok (.read10 flag1 (l3 ++ l2 ++ l1 ++ l0) (c1 ++ c0))
  | _ => .error (.commandLength bytes.length)

/-- The decoder: total, and rejecting by name (30_encoding R103). -/
def decode (opc : Byte) : InstrWord → Except DecodeRefusal Instr
  | .hreq w => (Hreq.unpack w).decode
  | .cdb10 bytes => decodeCommand opc bytes

/-- `Encode(lba, count, flag)`, the Command Encoder (30_encoding R92). -/
def encodeCommand (opc : Byte) (lba : Lba) (count : Count) (flag : Byte) : List Byte :=
  [ opc, flag,
    lba.extractLsb' 24 8, lba.extractLsb' 16 8, lba.extractLsb' 8 8, lba.extractLsb' 0 8,
    flag,
    count.extractLsb' 8 8, count.extractLsb' 0 8,
    0x00 ]

/-- A request with every field it does not use at zero, as a host should drive them (30_encoding R99). -/
def Hreq.ofFields (op vd vs flag : Byte) (a b : Offset) : InstrWord :=
  .hreq (Hreq.pack { op := op, vd := vd, vs := vs, flag := flag, a := a, b := b })

/-- The encoder, from the same tables (30_encoding R92, R97, R99, R100). -/
def encode (opc : Byte) : Instr → InstrWord
  | .enc lba count flag => Hreq.ofFields 0x01 0 0 flag lba count
  | .openDev path => Hreq.ofFields 0x02 0 0 0 path 0
  | .closeDev => Hreq.ofFields 0x03 0 0 0 0 0
  | .rdblk lba count flag => Hreq.ofFields 0x04 0 0 flag lba count
  | .binit vd anchor rel => Hreq.ofFields 0x08 vd 0 0 anchor rel
  | .derive vd vs extra => Hreq.ofFields 0x09 vd vs 0 extra 0
  | .adv vd delta => Hreq.ofFields 0x0A vd 0 0 delta 0
  | .rdb vs offset length => Hreq.ofFields 0x0B 0 vs 0 offset length
  | .u8 vs offset => Hreq.ofFields 0x10 0 vs 0 offset 0
  | .i8 vs offset => Hreq.ofFields 0x11 0 vs 0 offset 0
  | .u16 vs offset => Hreq.ofFields 0x12 0 vs 0 offset 0
  | .i16 vs offset => Hreq.ofFields 0x13 0 vs 0 offset 0
  | .u32 vs offset => Hreq.ofFields 0x14 0 vs 0 offset 0
  | .i32 vs offset => Hreq.ofFields 0x15 0 vs 0 offset 0
  | .txt vs offset length => Hreq.ofFields 0x18 0 vs 0 offset length
  | .read10 flag lba count => .cdb10 (encodeCommand opc lba count flag)

/-- The `n` bytes of a value, most significant first (00_scope R21: byte `i` of the command is bits
`[79 - 8i : 72 - 8i]`). -/
def bytesMsbFirst : Nat → Nat → List Byte
  | 0, _ => []
  | n + 1, w => BitVec.ofNat 8 (w / 256 ^ n) :: bytesMsbFirst n w

/-- How an opcode-table word of `nbits` bits is stored: an 80-bit word is a device command, every other a host request
(30_encoding R108; the table numbers both with byte 0 most significant, log 15). -/
def tableWord (nbits w : Nat) : InstrWord :=
  if nbits = 80 then .cdb10 (bytesMsbFirst 10 w) else .hreq (BitVec.ofNat 160 w)

/-- The instruction the decoder reads from an opcode-table word, on this hardware. -/
def decodeTableWord (nbits w : Nat) : Option Instr :=
  match decode Config.thisHardware.opc (tableWord nbits w) with
  | .ok i => some i
  | .error _ => none

end Sys2Proof
end

