-- ==== Sys2Proof/Machine/State.lean ====
section
/-! DEFINITION. The state of BBR as plain data: the architectural state of 10_state R30, the transient sequencer state
of R46 and R47, and the two ports with their outputs (R49), with the reset state of R51. -/

namespace Sys2Proof.Machine

/-- The result code of a response (60_exceptions R240); codes 9 to 15 are never produced. -/
inductive Status where
  | ok
  | permissionDenied
  | notFound
  | openFailed
  | closed
  | ioError
  | boundsError
  | illegalRequest
  | noView
  deriving DecidableEq, Repr

/-- The host response HRSP (30_encoding R104). `val` is `none` where the spec gives the field no value: for a failure,
and for an operation that R105 marks "not used" (log 13). -/
structure Response where
  status : Status
  val : Option (BitVec 32)
  payload : List Byte
  deriving DecidableEq, Repr

/-- What `DevOpen` may answer (41_device_channel R141). -/
inductive OpenAnswer where
  | granted
  | accessDenied
  | notFound
  | otherFailure
  deriving DecidableEq, Repr

/-- What `DevCmd` answers: the passthrough call's own report and the bytes transferred (41_device_channel R143). -/
structure CmdAnswer where
  ok : Bool
  bytes : List Byte
  deriving DecidableEq, Repr

/-- One entry of the device trace, a primitive sent to the environment (00_scope R25; 41_device_channel R141 to R143).
`xferLen` is the expected transfer length, direction from device (30_encoding R96). -/
inductive DevEvent where
  | devOpen (path : Path)
  | devClose (path : Path)
  | devCmd (path : Path) (cdb : List Byte) (xferLen : Nat)
  deriving DecidableEq, Repr

/-- One slot of the view table (10_state R40 to R42). `rel` has a meaning only while `valid`. -/
structure View where
  valid : Bool
  rel : Offset
  deriving DecidableEq, Repr

/-- How the bytes of a read are handed to the host (30_encoding R105): RDB, TXT and the six integer accessors. -/
inductive ReadForm where
  | bytes
  | text
  | u8
  | i8
  | u16
  | i16
  | u32
  | i32
  deriving DecidableEq, Repr

/-- A running extension, the tuple `(request, n, ext_base, i, stage)` of 42_block_buffer R195. The request is kept as
what remains to be done with it: its form, its `start` and its length (log 18). -/
structure Extension where
  /-- how the bytes are handed back after the commit -/
  form : ReadForm
  /-- arena index of the first requested byte (R184) -/
  start : Nat
  /-- number of requested bytes (R184) -/
  len : Nat
  /-- `ext_n`: blocks to fetch (R185) -/
  n : Nat
  /-- `ext_base`: first LBA (R187) -/
  base : Nat
  /-- `ext_i`: blocks fetched so far -/
  i : Nat
  /-- `stage`: the blocks fetched and not committed (10_state R47) -/
  stage : List Byte
  deriving DecidableEq, Repr

/-- What the answer to the outstanding device command is for: an RDBLK, or the extension of a read. -/
inductive Continuation where
  | blocks
  | extension (e : Extension)
  deriving DecidableEq, Repr

/-- The device primitive that is sent and not answered (10_state R47 (b)): at most one exists. -/
inductive Running where
  /-- `DevOpen(path)` -/
  | opening (path : Path)
  /-- `DevCmd(ch_path, cdb, _)` -/
  | reading (cdb : List Byte) (k : Continuation)
  deriving DecidableEq, Repr

/-- The sequencer's phase (10_state R46). Between steps RUN always waits for an answer of the environment (log 6). -/
inductive Phase where
  | idle
  | run (r : Running)
  deriving DecidableEq, Repr

/-- The arena's bytes: cells (arena index, byte). An index with no cell holds no byte (20_memory R62: indices from
`mlen` upward "hold nothing yet"; log 12). -/
abbrev Memory := List Host.Cell

/-- What an unlisted arena index reads as: no value (20_memory R62; log 12). -/
def Memory.unlisted : Option Byte := none

/-- The canonical form: the cells stand at the indices 0, 1, 2, … in order, as 10_state R33 has the arena. So the
addresses rise strictly, and no cell is listed that an unlisted index would read as, since that is no value. -/
def Memory.wf (m : Memory) : Bool := decide (m.map (·.1) = List.range m.length)

/-- The machine. -/
structure State where
  /-- MODEL's own field: the instance's parameters, changed by no step (log 1). -/
  cfg : Config
  /-- `ch_open` (10_state R31) -/
  chOpen : Bool
  /-- `ch_path`, meaningful while `chOpen` (10_state R32) -/
  chPath : Path
  /-- `data`, the arena (10_state R33) -/
  data : Memory
  /-- `mlen`, the materialized length (10_state R34) -/
  mlen : Offset
  /-- `abs`, the device byte address of arena index 0 (10_state R35) -/
  abs : Offset
  /-- `view[0]` to `view[NVIEWS-1]` (10_state R40) -/
  views : List View
  /-- `phase` with `stage`, `ext_n`, `ext_i`, `ext_base` and the outstanding primitive (10_state R46, R47) -/
  phase : Phase
  /-- MODEL's own field: the request port, requests presented and not yet accepted (70_reset R290; log 7). -/
  requests : List (BitVec 160)
  /-- MODEL's own field: the responses given, oldest first (30_encoding R104; log 14). -/
  responses : List Response
  /-- MODEL's own field: the device trace, oldest first (00_scope R25; log 14). -/
  trace : List DevEvent
  /-- MODEL's own field: what the environment answers to the coming `DevOpen`s (41_device_channel R144; log 5). -/
  openAnswers : List OpenAnswer
  /-- MODEL's own field: what the environment answers to the coming `DevCmd`s (41_device_channel R144; log 5). -/
  cmdAnswers : List CmdAnswer
  deriving DecidableEq, Repr

/-- Where the model stops. No reachable state does any of these for an operation the machine runs by itself. -/
inductive Fault where
  /-- Raised by `MemRead` for an index that holds no byte: 00_scope R24 defines `MemRead(a, n)` only when
  `a + n ≤ mlen`. No reachable state raises it. Safe (log 11). -/
  | arenaHole
  /-- Raised by the step when what stands on the device port is no READ10 command: BBR never emits one (30_encoding
  R95). No reachable state raises it. Safe (log 10). -/
  | malformedCommand
  /-- Raised by READ10 when that command does not stand on the device port: BBR "never receives or decodes a command"
  (30_encoding R90). The step never raises it. Safe (log 9). -/
  | noCommandOutstanding
  deriving DecidableEq, Repr

/-- Why an instruction has no meaning. -/
inductive Refusal where
  /-- Raised by an arm of `exec` that has no meaning yet; none is left. Safe. -/
  | notModelled (mnemonic : String)
  deriving DecidableEq, Repr

/-- The outcome of a meaning. -/
abbrev Result := Host.Outcome State Fault Refusal

/-- The reset state of an instance (10_state R51): channel closed, arena empty, no view, sequencer in IDLE. `ch_path`
and every `rel` are "unspecified (never read)": DESIGN CHOICE 0 (log 3). -/
def State.resetOf (c : Config) : State :=
  { cfg := c
    chOpen := false
    chPath := 0
    data := []
    mlen := 0
    abs := 0
    views := List.replicate c.nviews { valid := false, rel := 0 }
    phase := .idle
    requests := []
    responses := []
    trace := []
    openAnswers := []
    cmdAnswers := [] }

/-- The machine right after reset, this hardware (10_state R51, 70_reset R280). -/
def State.reset : State := State.resetOf Config.thisHardware

end Sys2Proof.Machine
end

