-- ==== Sys2Proof/Machine/Operands.lean ====
section
/-! DEFINITION. Operands: the view an index names, the range checks of a request's numbers, the block arithmetic of a
read, and the codecs of the field path. BBR has no flags (10_state R48), so there is no file of flag computations. -/

namespace Sys2Proof.Machine

/-- `view[i]` (00_scope R23). A slot the table lacks holds no view (log 20). -/
def State.view (s : State) (v : Byte) : View := s.views.getD v.toNat { valid := false, rel := 0 }

/-- A view index names a slot: below `NVIEWS` (30_encoding R102). -/
def State.viewInRange (s : State) (v : Byte) : Bool := viewIndexOk s.cfg v

/-- `lba` and `block_count` fit their fields (40_command_encoder R122). -/
def commandInRange (lba count : Offset) : Bool := decide (lba.toNat ≤ maxLba) && decide (count.toNat ≤ maxCount)

/-- The least arena length that cannot be exceeded: `min(ARENA_CAP, 2^64 - 1)` (42_block_buffer R183, R186). -/
def arenaLimit (c : Config) : Nat :=
  match c.arenaCap with
  | none => maxOffset
  | some cap => min cap maxOffset

/-- Extension is needed: `end ≥ mlen`, where `stop = start + length = end + 1` (42_block_buffer R185). `end` may be
-1; `stop` is a natural number, so the test is written with it. -/
def needsExtension (mlen stop : Nat) : Bool := decide (mlen < stop)

/-- The number of blocks an extension fetches: `n = (end - mlen) div BS + 1`, with `stop = end + 1`
(42_block_buffer R185). Read only when `needsExtension`. -/
def extensionBlocks (bs mlen stop : Nat) : Nat := (stop - 1 - mlen) / bs + 1

/-- The first block an extension fetches: `ext_base = (abs + mlen) div BS` (42_block_buffer R187). -/
def extensionBase (bs anchor mlen : Nat) : Nat := (anchor + mlen) / bs

/-- `be_N`: most significant byte first (00_scope R22). -/
def beValue (s : List Byte) : Nat := s.foldl (fun acc b => 256 * acc + b.toNat) 0

/-- `le_N`: least significant byte first (00_scope R22). -/
def leValue : List Byte → Nat
  | [] => 0
  | b :: rest => b.toNat + 256 * leValue rest

/-- `rec_N` (00_scope R22). -/
def recValue (o : RecordOrder) (s : List Byte) : Nat :=
  match o with
  | .le => leValue s
  | .be => beValue s

/-- The `N`-bit value zero-extended to 32 bits (43_field_accessors R212, R214, R216). -/
def unsignedField (n : Nat) (o : RecordOrder) (s : List Byte) : BitVec 32 := (BitVec.ofNat n (recValue o s)).setWidth 32

/-- The `N`-bit value sign-extended to 32 bits (43_field_accessors R213, R215, R217). -/
def signedField (n : Nat) (o : RecordOrder) (s : List Byte) : BitVec 32 := (BitVec.ofNat n (recValue o s)).signExtend 32

/-- The successful response of a read of each form (30_encoding R105; 43_field_accessors R212 to R218). -/
def ReadForm.response (f : ReadForm) (o : RecordOrder) (s : List Byte) : Response :=
  match f with
  | .bytes => { status := .ok, val := none, payload := s }
  | .text => { status := .ok, val := none, payload := s }
  | .u8 => { status := .ok, val := some (unsignedField 8 o s), payload := [] }
  | .i8 => { status := .ok, val := some (signedField 8 o s), payload := [] }
  | .u16 => { status := .ok, val := some (unsignedField 16 o s), payload := [] }
  | .i16 => { status := .ok, val := some (signedField 16 o s), payload := [] }
  | .u32 => { status := .ok, val := some (unsignedField 32 o s), payload := [] }
  | .i32 => { status := .ok, val := some (signedField 32 o s), payload := [] }

/-- The 4-bit code of a status (60_exceptions R240). -/
def Status.code : Status → BitVec 4
  | .ok => 0
  | .permissionDenied => 1
  | .notFound => 2
  | .openFailed => 3
  | .closed => 4
  | .ioError => 5
  | .boundsError => 6
  | .illegalRequest => 7
  | .noView => 8

/-- The device byte address of view offset `o` of a view: `abs + (rel + o)` (20_memory R64). -/
def State.deviceByte (s : State) (v : Byte) (o : Offset) : Nat := s.abs.toNat + ((s.view v).rel.toNat + o.toNat)

/-- The block that holds a device byte address: floor division by `BS` (20_memory R64). -/
def blockOf (bs deviceByte : Nat) : Nat := deviceByte / bs

end Sys2Proof.Machine
end

