-- ==== Sys2Proof/Machine/Ops.lean ====
section
/-! DEFINITION. The named operations over the state: answering and raising (00_scope R26, 60_exceptions R250), the
arena's primitives (00_scope R24), the device primitives (00_scope R25) and the extension loop (42_block_buffer R188
to R190). -/

namespace Sys2Proof.Machine

/-! ### Answering -/

/-- `respond`: the operation ends, its response is given and the sequencer returns to IDLE (10_state R46). -/
def State.respond (s : State) (r : Response) : State :=
  { s with phase := .idle, responses := s.responses ++ [r] }

/-- TAKING AN EXCEPTION: `raise <Status>` ends the operation with that status, no value and no payload, and every
element of the architectural state as it stands (00_scope R26, 60_exceptions R250). There is nothing to return from:
the machine is in IDLE and accepts the next request (60_exceptions R251). -/
def State.raise (s : State) (st : Status) : State :=
  s.respond { status := st, val := none, payload := [] }

/-- `respond Ok()` and `respond Ok(payload = …)` (30_encoding R105). -/
def State.succeed (s : State) (payload : List Byte) : State :=
  s.respond { status := .ok, val := none, payload := payload }

/-! ### The arena (00_scope R24) -/

/-- One byte of the arena. -/
def Memory.read (m : Memory) (a : Nat) : Option Byte :=
  match m.find? (fun c => c.1 == a) with
  | some c => some c.2
  | none => Memory.unlisted

/-- The `n` bytes at arena indices `a` to `a + n - 1`, or nothing if one of them holds no byte. -/
def Memory.readBytes (m : Memory) (a : Nat) : Nat → Option (List Byte)
  | 0 => some []
  | n + 1 =>
    match m.read a with
    | none => none
    | some b =>
      match m.readBytes (a + 1) n with
      | none => none
      | some rest => some (b :: rest)

/-- The cells of a byte sequence placed from arena index `a` upward. -/
def cellsAt (a : Nat) : List Byte → Memory
  | [] => []
  | b :: rest => (a, b) :: cellsAt (a + 1) rest

/-- `data ++ s`: the bytes stand at the indices that follow the arena's last. -/
def Memory.append (m : Memory) (bytes : List Byte) : Memory := m ++ cellsAt m.length bytes

/-- `ArenaAppend(s)`: `data <- data ++ s; mlen <- mlen + len(s)` (00_scope R24). -/
def State.arenaAppend (s : State) (bytes : List Byte) : State :=
  { s with data := s.data.append bytes, mlen := BitVec.ofNat 64 (s.mlen.toNat + bytes.length) }

/-- `ArenaClear()`: `data <- []; mlen <- 0` (00_scope R24). -/
def State.arenaClear (s : State) : State := { s with data := [], mlen := 0 }

/-! ### The view table (10_state R40, R41) -/

/-- `view[i] <- v` (00_scope R23). -/
def State.setView (s : State) (i : Byte) (v : View) : State := { s with views := s.views.set i.toNat v }

/-- `view[i].valid <- 0` for every slot (42_block_buffer R172). -/
def State.invalidateViews (s : State) : State :=
  { s with views := s.views.map fun v => { v with valid := false } }

/-! ### The device port (00_scope R25, 41_device_channel R141 to R143) -/

/-- Sending `DevOpen(path)`: it stands unanswered until the environment answers. -/
def State.sendOpen (s : State) (path : Path) : State :=
  { s with trace := s.trace ++ [.devOpen path], phase := .run (.opening path) }

/-- Sending `DevClose(ch_path)`: it has no answer (41_device_channel R142). -/
def State.sendClose (s : State) : State := { s with trace := s.trace ++ [.devClose s.chPath] }

/-- Sending `DevCmd(ch_path, cdb, xfer_len)`: it stands unanswered until the environment answers. -/
def State.sendCommand (s : State) (cdb : List Byte) (xferLen : Nat) (k : Continuation) : State :=
  { s with trace := s.trace ++ [.devCmd s.chPath cdb xferLen], phase := .run (.reading cdb k) }

/-- `Accept((ok, bytes), xfer_len)` (41_device_channel R154). -/
def CmdAnswer.accepted (a : CmdAnswer) (xferLen : Nat) : Bool := a.ok && decide (a.bytes.length = xferLen)

/-- The answer to the outstanding `DevOpen`, if the environment has given one; else the machine goes on waiting
(41_device_channel R145, R146; 70_reset R294). -/
def State.awaitOpen (s : State) (path : Path) : State :=
  match s.openAnswers with
  | [] => s
  | answer :: rest =>
    let s := { s with openAnswers := rest }
    match answer with
    | .granted => { s with chOpen := true, chPath := path }.succeed []
    | .accessDenied => s.raise .permissionDenied
    | .notFound => s.raise .notFound
    | .otherFailure => s.raise .openFailed

/-- The answer to the outstanding command of an RDBLK of `count` blocks (41_device_channel R155, R156, R158). -/
def State.awaitBlocks (s : State) (count : Nat) : State :=
  match s.cmdAnswers with
  | [] => s
  | answer :: rest =>
    let s := { s with cmdAnswers := rest }
    if answer.accepted (count * s.cfg.bs) then s.succeed answer.bytes else s.raise .ioError

/-- The end of a read whose bytes are all present: `respond Ok` with `MemRead(start, length)` in the form asked for
(42_block_buffer R191, 43_field_accessors R210). -/
def State.finishRead (s : State) (form : ReadForm) (start len : Nat) : Result :=
  match s.data.readBytes start len with
  | some bytes => .next (s.respond (form.response s.cfg.recordOrder bytes))
  | none => .fault .arenaHole

/-- The 10 bytes of the command for block `i` of an extension: `Encode(ext_base + i, 1, EXT_FLAG)`
(42_block_buffer R188). -/
def Extension.cdb (e : Extension) (c : Config) : List Byte :=
  encodeCommand c.opc (BitVec.ofNat 32 (e.base + e.i)) 1 c.extFlag

/-- Sending the command for block `i` of an extension; its transfer length is one block (42_block_buffer R188). -/
def State.sendExtension (s : State) (e : Extension) : State :=
  s.sendCommand (e.cdb s.cfg) (1 * s.cfg.bs) (.extension e)

/-- An accepted block goes to the staging buffer (42_block_buffer R188, R195). -/
def Extension.take (e : Extension) (block : List Byte) : Extension :=
  { e with i := e.i + 1, stage := e.stage ++ block }

/-- The extension loop from an outstanding command on (42_block_buffer R188 to R191, R195): an accepted answer is
staged and the next command sent, the last one commits the whole stage at once and answers the read, a rejected one
discards the stage and raises `IOError`; with no answer the machine goes on waiting. The first argument is the
environment's tape, `s.cmdAnswers`. -/
def State.awaitExtension : List CmdAnswer → Extension → State → Result
  | [], _, s => .next s
  | answer :: rest, e, s =>
    let s := { s with cmdAnswers := rest }
    if answer.accepted (1 * s.cfg.bs) then
      let e := e.take answer.bytes
      if e.i < e.n then State.awaitExtension rest e (s.sendExtension e)
      else (s.arenaAppend e.stage).finishRead e.form e.start e.len
    else .next (s.raise .ioError)

/-- `ReadCore` followed by the response of each form (42_block_buffer R183, 43_field_accessors R210): the checks in
the order of 60_exceptions R248, the extension when the last byte is not present, the bytes. -/
def State.read (s : State) (form : ReadForm) (vs : Byte) (offset length : Offset) : Result :=
  if !s.viewInRange vs then .next (s.raise .illegalRequest)
  else if !(s.view vs).valid then .next (s.raise .noView)
  else
    let start := (s.view vs).rel.toNat + offset.toNat
    let stop := start + length.toNat
    if stop > maxOffset then .next (s.raise .boundsError)
    else if needsExtension s.mlen.toNat stop then
      let n := extensionBlocks s.cfg.bs s.mlen.toNat stop
      let base := extensionBase s.cfg.bs s.abs.toNat s.mlen.toNat
      if s.mlen.toNat + n * s.cfg.bs > arenaLimit s.cfg then .next (s.raise .boundsError)
      else if base + n - 1 > maxLba then .next (s.raise .boundsError)
      else if !s.chOpen then .next (s.raise .closed)
      else
        let e : Extension :=
          { form := form, start := start, len := length.toNat, n := n, base := base, i := 0, stage := [] }
        State.awaitExtension s.cmdAnswers e (s.sendExtension e)
    else s.finishRead form start length.toNat

/-! ### Reset as an event -/

/-- Reset arriving in a running machine (70_reset R280, R281): every element at its reset value, no device primitive,
no response; a running operation is abandoned. It is no step: "a model ... need not model reset as an event at all"
(R280; log 16). The ports and the outputs are no state (10_state R49) and stay. -/
def State.hardReset (s : State) : State :=
  { State.resetOf s.cfg with
    requests := s.requests
    responses := s.responses
    trace := s.trace
    openAnswers := s.openAnswers
    cmdAnswers := s.cmdAnswers }

end Sys2Proof.Machine
end

