-- ==== Sys2Proof/Machine/BlockBuffer.lean ====
section
/-! DEFINITION. The Growable Block Buffer family: BINIT, DERIVE, ADV, RDB (42_block_buffer). -/

namespace Sys2Proof.Machine

/-- BINIT (42_block_buffer R171, R172): the arena is emptied and anchored, every view dies, slot `vd` is the first
view. -/
def execBinit (vd : Byte) (anchor rel : Offset) (s : State) : Result :=
  if !s.viewInRange vd then .next (s.raise .illegalRequest)
  else if anchor.toNat % s.cfg.bs ≠ 0 then .next (s.raise .boundsError)
  else
    .next (({ s.arenaClear with abs := anchor }.invalidateViews.setView vd { valid := true, rel := rel }).succeed [])

/-- DERIVE (42_block_buffer R175, R176). -/
def execDerive (vd vs : Byte) (extra : Offset) (s : State) : Result :=
  if !(s.viewInRange vd && s.viewInRange vs) then .next (s.raise .illegalRequest)
  else if !(s.view vs).valid then .next (s.raise .noView)
  else if (s.view vs).rel.toNat + extra.toNat > maxOffset then .next (s.raise .boundsError)
  else .next ((s.setView vd { valid := true, rel := (s.view vs).rel + extra }).succeed [])

/-- ADV (42_block_buffer R179, R180). -/
def execAdv (vd : Byte) (delta : Offset) (s : State) : Result :=
  if !s.viewInRange vd then .next (s.raise .illegalRequest)
  else if !(s.view vd).valid then .next (s.raise .noView)
  else if (s.view vd).rel.toNat + delta.toNat > maxOffset then .next (s.raise .boundsError)
  else .next ((s.setView vd { s.view vd with rel := (s.view vd).rel + delta }).succeed [])

/-- RDB (42_block_buffer R182 to R193). -/
def execRdb (vs : Byte) (offset length : Offset) (s : State) : Result := s.read .bytes vs offset length

end Sys2Proof.Machine
end

