-- ==== Sys2Proof/Machine/CommandEncoder.lean ====
section
/-! DEFINITION. The Command Encoder family: ENC (40_command_encoder). -/

namespace Sys2Proof.Machine

/-- ENC (40_command_encoder R121, R122): the 10 bytes of the command, or `BoundsError`. -/
def execEnc (lba count : Offset) (flag : Byte) (s : State) : Result :=
  if commandInRange lba count then
    .next (s.succeed (encodeCommand s.cfg.opc (lba.setWidth 32) (count.setWidth 16) flag))
  else .next (s.raise .boundsError)

end Sys2Proof.Machine
end

