-- ==== Sys2Proof/Machine/DeviceChannel.lean ====
section
/-! DEFINITION. The Device Channel family: OPEN, CLOSE, RDBLK (41_device_channel) and READ10, the command that stands
on the device port. -/

namespace Sys2Proof.Machine

/-- OPEN (41_device_channel R145 to R147). -/
def execOpen (path : Path) (s : State) : Result :=
  if s.chOpen then .next (s.raise .openFailed) else .next ((s.sendOpen path).awaitOpen path)

/-- CLOSE (41_device_channel R150 to R152). -/
def execClose (s : State) : Result :=
  if !s.chOpen then .next (s.raise .closed) else .next ({ s.sendClose with chOpen := false }.succeed [])

/-- RDBLK (41_device_channel R155 to R158). -/
def execRdblk (lba count : Offset) (flag : Byte) (s : State) : Result :=
  if !commandInRange lba count then .next (s.raise .boundsError)
  else if !s.chOpen then .next (s.raise .closed)
  else
    let cdb := encodeCommand s.cfg.opc (lba.setWidth 32) (count.setWidth 16) flag
    .next ((s.sendCommand cdb (count.toNat * s.cfg.bs) .blocks).awaitBlocks count.toNat)

/-- READ10 (30_encoding R91, R92): the command that stands on the device port completes, as far as the environment
answers: it ends the RDBLK that sent it (41_device_channel R154 to R156) or takes the extension on (42_block_buffer
R188 to R190). For a command that does not stand there the model stops (log 8, log 9). -/
def execRead10 (flag : Byte) (lba : Lba) (count : Count) (s : State) : Result :=
  match s.phase with
  | .run (.reading cdb k) =>
    if cdb = encodeCommand s.cfg.opc lba count flag then
      match k with
      | .blocks => .next (s.awaitBlocks count.toNat)
      | .extension e => State.awaitExtension s.cmdAnswers e s
    else .fault .noCommandOutstanding
  | _ => .fault .noCommandOutstanding

end Sys2Proof.Machine
end

