-- ==== Sys2Proof/Machine/FieldAccessors.lean ====
section
/-! DEFINITION. The Typed Field Accessor family: U8, I8, U16, I16, U32, I32, TXT (43_field_accessors). Each is
`ReadCore` with its width, then the decoding of its form (R210, R211). -/

namespace Sys2Proof.Machine

/-- U8 (43_field_accessors R212). -/
def execU8 (vs : Byte) (offset : Offset) (s : State) : Result := s.read .u8 vs offset 1

/-- I8 (43_field_accessors R213). -/
def execI8 (vs : Byte) (offset : Offset) (s : State) : Result := s.read .i8 vs offset 1

/-- U16 (43_field_accessors R214). -/
def execU16 (vs : Byte) (offset : Offset) (s : State) : Result := s.read .u16 vs offset 2

/-- I16 (43_field_accessors R215). -/
def execI16 (vs : Byte) (offset : Offset) (s : State) : Result := s.read .i16 vs offset 2

/-- U32 (43_field_accessors R216). -/
def execU32 (vs : Byte) (offset : Offset) (s : State) : Result := s.read .u32 vs offset 4

/-- I32 (43_field_accessors R217). -/
def execI32 (vs : Byte) (offset : Offset) (s : State) : Result := s.read .i32 vs offset 4

/-- TXT (43_field_accessors R218): the raw bytes, unchanged. -/
def execTxt (vs : Byte) (offset length : Offset) (s : State) : Result := s.read .text vs offset length

end Sys2Proof.Machine
end

