-- ==== Sys2Proof/Machine/Dispatch.lean ====
section
/-! DEFINITION. One arm per operation, each a direct call of its meaning. -/

namespace Sys2Proof.Machine

/-- What each operation does. -/
def exec (i : Instr) (s : State) : Host.Outcome State Fault Refusal :=
  match i with
  | .enc lba count flag => Sys2Proof.Machine.execEnc lba count flag s
  | .openDev path => Sys2Proof.Machine.execOpen path s
  | .closeDev => Sys2Proof.Machine.execClose s
  | .rdblk lba count flag => Sys2Proof.Machine.execRdblk lba count flag s
  | .binit vd anchor rel => Sys2Proof.Machine.execBinit vd anchor rel s
  | .derive vd vs extra => Sys2Proof.Machine.execDerive vd vs extra s
  | .adv vd delta => Sys2Proof.Machine.execAdv vd delta s
  | .rdb vs offset length => Sys2Proof.Machine.execRdb vs offset length s
  | .u8 vs offset => Sys2Proof.Machine.execU8 vs offset s
  | .i8 vs offset => Sys2Proof.Machine.execI8 vs offset s
  | .u16 vs offset => Sys2Proof.Machine.execU16 vs offset s
  | .i16 vs offset => Sys2Proof.Machine.execI16 vs offset s
  | .u32 vs offset => Sys2Proof.Machine.execU32 vs offset s
  | .i32 vs offset => Sys2Proof.Machine.execI32 vs offset s
  | .txt vs offset length => Sys2Proof.Machine.execTxt vs offset length s
  | .read10 flag lba count => Sys2Proof.Machine.execRead10 flag lba count s

end Sys2Proof.Machine
end

