-- ==== Sys2Proof/Machine/Fetch.lean ====
section
/-! DEFINITION. Where the next instruction comes from. BBR has no program counter and holds no program (10_state R45):
in IDLE the next request of the request port is accepted (10_state R46, 70_reset R290); in RUN the primitive that
stands on the device port goes on, a command being read there as the READ10 it is (log 8). -/

namespace Sys2Proof.Machine

/-- What the machine does next. -/
inductive Fetched where
  /-- nothing is presented: the machine stays in IDLE -/
  | waits
  /-- the instruction `i` runs from the state `s` -/
  | runs (i : Instr) (s : State)
  /-- the accepted request spells no operation (30_encoding R101) -/
  | illegal (s : State)
  /-- a `DevOpen` awaits its answer -/
  | opening (path : Path)
  /-- the device port holds no READ10 command -/
  | malformed
  deriving DecidableEq, Repr

/-- A request leaves the port when it is accepted (70_reset R290). -/
def State.fetchRequest (s : State) : Fetched :=
  match s.requests with
  | [] => .waits
  | w :: rest =>
    match decode s.cfg.opc (.hreq w) with
    | .ok i => .runs i { s with requests := rest }
    | .error _ => .illegal { s with requests := rest }

/-- The command on the device port, read by its layout (30_encoding R91). -/
def State.fetchCommand (s : State) (cdb : List Byte) : Fetched :=
  match decode s.cfg.opc (.cdb10 cdb) with
  | .ok i => .runs i s
  | .error _ => .malformed

/-- The next instruction. -/
def State.fetch (s : State) : Fetched :=
  match s.phase with
  | .idle => s.fetchRequest
  | .run (.opening path) => .opening path
  | .run (.reading cdb _) => s.fetchCommand cdb

/-- An instruction word placed where the machine fetches its next one: a host request first on the request port of an
idle machine; a device command on the device port, as the command of an RDBLK. -/
def State.placeWord (s : State) (w : InstrWord) : State :=
  match w with
  | .hreq w => { s with phase := .idle, requests := w :: s.requests }
  | .cdb10 bytes => { s with phase := .run (.reading bytes .blocks) }

end Sys2Proof.Machine
end

