-- ==== Sys2Proof/Machine/Step.lean ====
section
/-! DEFINITION. One step: one host request, as far as the environment has answered, or the continuation of one that
waits (10_state R46, 42_block_buffer R195; log 6). -/

namespace Sys2Proof.Machine

/-- One step of the machine. With nothing to do it stays as it is: IDLE with no request presented, or RUN with no
answer (70_reset R290, R294). -/
def step (s : State) : Host.Outcome State Fault Refusal :=
  match s.fetch with
  | .waits => .next s
  | .runs i s' => exec i s'
  | .illegal s' => .next (s'.raise .illegalRequest)
  | .opening path => .next (s.awaitOpen path)
  | .malformed => .fault .malformedCommand

/-- The opcode-table word stored where `step` fetches its next instruction (log 7). -/
def State.withFetchWord (s : State) (nbits w : Nat) : State := s.placeWord (tableWord nbits w)

end Sys2Proof.Machine
end

