-- ==== Sys2Proof/Safety.lean ====
section
/-! DEFINITION. What claims are stated in: the invariant of the machine (10_state R36, R46, R47, R52), the end of a run
(70_reset R300), and the words of the spec that statements use (the architectural state, a given response, the value
of a field read from its bytes, the fields an operation uses), written from the spec and not from the machine. -/

namespace Sys2Proof.Machine

/-! ### The invariant -/

/-- The architectural invariants: (I-a) to (I-e) of 10_state R36, a parameter record in range, a view table of
`NVIEWS` slots (R40), and the arena's canonical form. -/
structure State.ArchInv (s : State) : Prop where
  cfgOk : s.cfg.wf = true
  slots : s.views.length = s.cfg.nviews
  dataOk : s.data.wf = true
  /-- (I-a) -/
  lengthIsMlen : s.data.length = s.mlen.toNat
  /-- (I-b) -/
  mlenAligned : s.mlen.toNat % s.cfg.bs = 0
  /-- (I-c) -/
  absAligned : s.abs.toNat % s.cfg.bs = 0
  /-- (I-d), with the 64 bits of `mlen` -/
  withinCap : s.mlen.toNat ≤ arenaLimit s.cfg
  /-- (I-e) -/
  lbasFit : 0 < s.mlen.toNat → (s.abs.toNat + s.mlen.toNat) / s.cfg.bs ≤ 2 ^ 32

/-- A running extension is the one its request asks for, and `len(stage) = i * BS` with `i < n` (42_block_buffer R183,
R195). -/
structure Extension.Inv (s : State) (e : Extension) : Prop where
  stageLength : e.stage.length = e.i * s.cfg.bs
  unfinished : e.i < e.n
  blocks : e.n = extensionBlocks s.cfg.bs s.mlen.toNat (e.start + e.len)
  first : e.base = extensionBase s.cfg.bs s.abs.toNat s.mlen.toNat
  needed : s.mlen.toNat < e.start + e.len
  stopFits : e.start + e.len ≤ maxOffset
  fits : s.mlen.toNat + e.n * s.cfg.bs ≤ arenaLimit s.cfg
  lbasFit : e.base + e.n - 1 ≤ maxLba

/-- What the sequencer holds (10_state R46, R47): an unanswered `DevOpen` on a closed channel, or an unanswered `DevCmd`
on an open one, the command of an RDBLK or of the extension that is running. -/
def State.PhaseInv (s : State) : Prop :=
  match s.phase with
  | .idle => True
  | .run (.opening _) => s.chOpen = false
  | .run (.reading cdb .blocks) =>
    s.chOpen = true ∧ ∃ lba count flag, cdb = encodeCommand s.cfg.opc lba count flag
  | .run (.reading cdb (.extension e)) => s.chOpen = true ∧ cdb = e.cdb s.cfg ∧ e.Inv s

/-- The invariant of the machine. -/
structure State.Inv (s : State) : Prop where
  arch : s.ArchInv
  sequencer : s.PhaseInv

/-- The run is over: the last request has been answered and `phase = IDLE` (70_reset R300). -/
def State.runOver (s : State) : Prop := s.requests = [] ∧ s.phase = .idle

/-! ### The architectural state and a given response -/

/-- The architectural state of 10_state R30 is the same, bit for bit. -/
def State.sameArch (s t : State) : Prop :=
  t.chOpen = s.chOpen ∧ t.chPath = s.chPath ∧ t.data = s.data ∧ t.mlen = s.mlen ∧ t.abs = s.abs ∧ t.views = s.views

/-- `s` after the operation has ended with the response `r` (10_state R46). -/
def State.after (s : State) (r : Response) : State := { s with phase := .idle, responses := s.responses ++ [r] }

/-- A failure: a status, no value, no payload (30_encoding R104). -/
def failure (st : Status) : Response := { status := st, val := none, payload := [] }

/-- A success with a payload and no value (30_encoding R105). -/
def success (payload : List Byte) : Response := { status := .ok, val := none, payload := payload }

/-- A success with a value and no payload (30_encoding R105). -/
def successValue (v : BitVec 32) : Response := { status := .ok, val := some v, payload := [] }

/-- The bytes `data[start : start + length]` (42_block_buffer R191). -/
def State.slice (s : State) (start length : Nat) : List Byte := ((s.data.map (·.2)).drop start).take length

/-! ### Field values, from 43_field_accessors R211 to R217 -/

/-- `signed_N(v)` (00_scope R20). -/
def twosComplement (n v : Nat) : Int := if v < 2 ^ (n - 1) then (v : Int) else (v : Int) - 2 ^ n

/-- The 16-bit reading of two bytes (43_field_accessors R214). -/
def reading16 (o : RecordOrder) (b0 b1 : Byte) : Nat :=
  match o with
  | .le => b0.toNat + 256 * b1.toNat
  | .be => 256 * b0.toNat + b1.toNat

/-- The 32-bit reading of four bytes (43_field_accessors R216). -/
def reading32 (o : RecordOrder) (b0 b1 b2 b3 : Byte) : Nat :=
  match o with
  | .le => b0.toNat + 2 ^ 8 * b1.toNat + 2 ^ 16 * b2.toNat + 2 ^ 24 * b3.toNat
  | .be => 2 ^ 24 * b0.toNat + 2 ^ 16 * b1.toNat + 2 ^ 8 * b2.toNat + b3.toNat

/-- The eight operations that read, RDB, TXT, U8, I8, U16, I16, U32, I32: the view they read through, the offset, and
the number of bytes they move (20_memory R73). `none` for every other operation. -/
def readOf : Instr → Option (Byte × Offset × Nat)
  | .rdb vs offset length => some (vs, offset, length.toNat)
  | .txt vs offset length => some (vs, offset, length.toNat)
  | .u8 vs offset => some (vs, offset, 1)
  | .i8 vs offset => some (vs, offset, 1)
  | .u16 vs offset => some (vs, offset, 2)
  | .i16 vs offset => some (vs, offset, 2)
  | .u32 vs offset => some (vs, offset, 4)
  | .i32 vs offset => some (vs, offset, 4)
  | .enc _ _ _ => none
  | .openDev _ => none
  | .closeDev => none
  | .rdblk _ _ _ => none
  | .binit _ _ _ => none
  | .derive _ _ _ => none
  | .adv _ _ => none
  | .read10 _ _ _ => none

/-- The response each of the eight gives for the bytes it has read (30_encoding R105, 43_field_accessors R212 to R218).
`none` for a number of bytes the operation does not move. -/
def readAnswer (o : RecordOrder) : Instr → List Byte → Option Response
  | .rdb _ _ _, s => some (success s)
  | .txt _ _ _, s => some (success s)
  | .u8 _ _, [b0] => some (successValue (BitVec.ofNat 32 b0.toNat))
  | .i8 _ _, [b0] => some (successValue (BitVec.ofInt 32 (twosComplement 8 b0.toNat)))
  | .u16 _ _, [b0, b1] => some (successValue (BitVec.ofNat 32 (reading16 o b0 b1)))
  | .i16 _ _, [b0, b1] => some (successValue (BitVec.ofInt 32 (twosComplement 16 (reading16 o b0 b1))))
  | .u32 _ _, [b0, b1, b2, b3] => some (successValue (BitVec.ofNat 32 (reading32 o b0 b1 b2 b3)))
  | .i32 _ _, [b0, b1, b2, b3] =>
    some (successValue (BitVec.ofInt 32 (twosComplement 32 (reading32 o b0 b1 b2 b3))))
  | _, _ => none

/-! ### A read that passes its checks (42_block_buffer R183 to R187) -/

/-- In `s`, the read `i` names a slot that holds a view, and asks for the `len` bytes from arena index `start` on, all
arithmetic fitting 64 bits (42_block_buffer R183, R184). -/
def State.readsAt (s : State) (i : Instr) (start len : Nat) : Prop :=
  ∃ vs offset v, readOf i = some (vs, offset, len) ∧ vs.toNat < s.cfg.nviews ∧ s.views[vs.toNat]? = some v ∧
    v.valid = true ∧ start = v.rel.toNat + offset.toNat ∧ start + len ≤ 2 ^ 64 - 1

/-- A read up to `stop = end + 1` needs `n` blocks from device block `base` on (42_block_buffer R185, R187). -/
def State.lacks (s : State) (stop n base : Nat) : Prop :=
  s.mlen.toNat < stop ∧ n = (stop - 1 - s.mlen.toNat) / s.cfg.bs + 1 ∧
    base = (s.abs.toNat + s.mlen.toNat) / s.cfg.bs

/-- `n` more blocks are within `ARENA_CAP` and 64 bits (42_block_buffer R186). -/
def State.hasRoom (s : State) (n : Nat) : Prop :=
  s.mlen.toNat + n * s.cfg.bs ≤ 2 ^ 64 - 1 ∧ ∀ cap, s.cfg.arenaCap = some cap → s.mlen.toNat + n * s.cfg.bs ≤ cap

/-! ### The commands of an extension -/

/-- The commands an extension from block `base` has sent after `k` sendings, one block each, ascending
(42_block_buffer R188). -/
def extensionCommands (c : Config) (path : Path) (base k : Nat) : List DevEvent :=
  (List.range k).map fun j =>
    .devCmd path (encodeCommand c.opc (BitVec.ofNat 32 (base + j)) 1 c.extFlag) c.bs

/-- An answer that is one accepted block (41_device_channel R154). -/
def CmdAnswer.isBlock (a : CmdAnswer) (bs : Nat) : Prop := a.ok = true ∧ a.bytes.length = bs

/-- The bytes of a list of answers, in order. -/
def stagedBytes (answers : List CmdAnswer) : List Byte := answers.flatMap (·.bytes)

/-! ### The fields an operation uses (30_encoding R100), by op code -/

/-- Operations that use `vd`: BINIT, DERIVE, ADV. -/
def usesVd (op : Byte) : Bool := op ∈ [0x08, 0x09, 0x0A]

/-- Operations that use `vs`: DERIVE, RDB, the integer accessors, TXT. -/
def usesVs (op : Byte) : Bool := op ∈ [0x09, 0x0B, 0x10, 0x11, 0x12, 0x13, 0x14, 0x15, 0x18]

/-- Operations that use `flag`: ENC, RDBLK. -/
def usesFlag (op : Byte) : Bool := op ∈ [0x01, 0x04]

/-- Operations that use `a`: all but CLOSE. -/
def usesA (op : Byte) : Bool :=
  op ∈ [0x01, 0x02, 0x04, 0x08, 0x09, 0x0A, 0x0B, 0x10, 0x11, 0x12, 0x13, 0x14, 0x15, 0x18]

/-- Operations that use `b`: ENC, RDBLK, BINIT, RDB, TXT. -/
def usesB (op : Byte) : Bool := op ∈ [0x01, 0x04, 0x08, 0x0B, 0x18]

/-- The op codes of 30_encoding R100. -/
def definedOp (op : Byte) : Bool :=
  op ∈ [0x01, 0x02, 0x03, 0x04, 0x08, 0x09, 0x0A, 0x0B, 0x10, 0x11, 0x12, 0x13, 0x14, 0x15, 0x18]

/-! ### A disk image (41_device_channel R144) -/

/-- Byte `d` of a disk image whose blocks are `disk 0`, `disk 1`, … of `bs` bytes. -/
def diskByte (disk : Nat → List Byte) (bs d : Nat) : Option Byte := (disk (d / bs))[d % bs]?

/-- The arena holds the bytes of the image from device byte `abs` on (10_state R37). -/
def State.mirrors (s : State) (disk : Nat → List Byte) : Prop :=
  ∀ k, k < s.mlen.toNat → s.data.read k = diskByte disk s.cfg.bs (s.abs.toNat + k)

/-- What a deterministic oracle answers to a command for `count` blocks from `lba` on, an image of `nblk` blocks
(41_device_channel R144). -/
def imageAnswer (disk : Nat → List Byte) (nblk lba count : Nat) : CmdAnswer :=
  if lba + count ≤ nblk then { ok := true, bytes := (List.range count).flatMap fun j => disk (lba + j) }
  else { ok := false, bytes := [] }

end Sys2Proof.Machine
end

