-- ==== Sys2Proof/Certificates/Slice0/Obligations.lean ====
section
/-! DEFINITION. The statements for the provers. Each says in its docstring which rules of spec/ it formalises; a
sentence that rests on a choice of the model names the log entry. -/

open Sys2Proof Sys2Proof.Machine

/-! ### Encodings -/

/-- Decode and encode agree, for every operation with every operand and every `OPC` (30_encoding R92, R97, R100). -/
def Obligations.DecodeInvertsEncode : Prop :=
  ∀ (opc : Byte) (i : Instr), decode opc (encode opc i) = .ok i

/-- 30_encoding R99: two requests that agree in `op` and in the fields R100 lists for it decode to the same operation,
and the encoder drives the other fields to zero. -/
def Obligations.IgnoredFieldsHaveNoEffect : Prop :=
  (∀ (opc : Byte) (w w' : BitVec 160),
    let h := Hreq.unpack w
    let h' := Hreq.unpack w'
    definedOp h.op = true → h.op = h'.op → (usesVd h.op = true → h.vd = h'.vd) →
    (usesVs h.op = true → h.vs = h'.vs) → (usesFlag h.op = true → h.flag = h'.flag) →
    (usesA h.op = true → h.a = h'.a) → (usesB h.op = true → h.b = h'.b) →
    ∃ i, decode opc (.hreq w) = .ok i ∧ decode opc (.hreq w') = .ok i) ∧
  (∀ (opc : Byte) (i : Instr) (w : BitVec 160), encode opc i = .hreq w →
    let h := Hreq.unpack w
    (usesVd h.op = false → h.vd = 0) ∧ (usesVs h.op = false → h.vs = 0) ∧ (usesFlag h.op = false → h.flag = 0) ∧
    (usesA h.op = false → h.a = 0) ∧ (usesB h.op = false → h.b = 0))

/-- 30_encoding R101: exactly the listed op codes spell no operation; a request with such an `op` is answered with
`IllegalRequest`, changes no state and issues no device primitive; the all-zero request is one. -/
def Obligations.ReservedOpsAreIllegalRequests : Prop :=
  (∀ (opc : Byte) (w : BitVec 160),
    let op := (Hreq.unpack w).op
    ((∃ e, decode opc (.hreq w) = .error e) ↔
      (op.toNat = 0x00 ∨ (0x05 ≤ op.toNat ∧ op.toNat ≤ 0x07) ∨ (0x0C ≤ op.toNat ∧ op.toNat ≤ 0x0F) ∨
        op.toNat = 0x16 ∨ op.toNat = 0x17 ∨ 0x19 ≤ op.toNat))) ∧
  (∀ (s : State) (w : BitVec 160) (rest : List (BitVec 160)) (e : DecodeRefusal),
    s.phase = .idle → s.requests = w :: rest → decode s.cfg.opc (.hreq w) = .error e →
    step s = .next ({ s with requests := rest }.after (failure .illegalRequest))) ∧
  (∀ (opc : Byte), ∃ e, decode opc (.hreq 0) = .error e)

/-- Words written out byte by byte from the spec's encodings decode to what they stand for: ENC, RDBLK, CLOSE with its
ignored fields set, BINIT, DERIVE, ADV, U16, I32, TXT and READ10 (95_test_vectors E3, K9, P1, P2, Q5). -/
def Obligations.SpecWordsDecode : Prop :=
  decodeTableWord 160 0x0100005A0000000012345678000000000000ABCD = some (.enc 0x12345678 0xABCD 0x5A) ∧
  decodeTableWord 160 0x0400001000000000000000030000000000000002 = some (.rdblk 3 2 0x10) ∧
  decodeTableWord 160 0x03FFFFFFFFFFFFFFFFFFFFFFFFFFFFFFFFFFFFFF = some (.closeDev) ∧
  decodeTableWord 160 0x0800000000000000000020000000000000000004 = some (.binit 0 0x2000 4) ∧
  decodeTableWord 160 0x0901000000000000000001FC0000000000000000 = some (.derive 1 0 0x1FC) ∧
  decodeTableWord 160 0x0A01000000000000000001FE0000000000000000 = some (.adv 1 510) ∧
  decodeTableWord 160 0x1200000000000000000001FE0000000000000000 = some (.u16 0 510) ∧
  decodeTableWord 160 0x1500010000000000000000000000000000000000 = some (.i32 1 0) ∧
  decodeTableWord 160 0x18000000000000000000000C0000000000000004 = some (.txt 0 12 4) ∧
  ∀ opc : Byte, decode opc (.cdb10 [opc, 0x10, 0x00, 0x00, 0x00, 0x03, 0x10, 0x00, 0x02, 0x00]) = .ok (.read10 0x10 3 2)

/-- 30_encoding R93: the round-trip law of `Encode`, and its injectivity. -/
def Obligations.CommandRoundTrip : Prop :=
  ∀ (opc : Byte) (lba : Lba) (count : Count) (flag : Byte),
    let cdb := encodeCommand opc lba count flag
    cdb.length = 10 ∧ beValue ((cdb.drop 2).take 4) = lba.toNat ∧ beValue ((cdb.drop 7).take 2) = count.toNat ∧
    cdb[1]? = some flag ∧ cdb[6]? = some flag ∧ cdb[0]? = some opc ∧ cdb[9]? = some 0 ∧
    ∀ lba' count' flag', encodeCommand opc lba' count' flag' = cdb → lba' = lba ∧ count' = count ∧ flag' = flag

/-! ### The step -/

/-- When the machine is in IDLE and the request at the head of the port decodes to `i`, the step is `exec i` on the
state with that request taken from the port (10_state R46, 70_reset R290). When a READ10 command stands on the device
port, the step is `exec` of it on the state as it is (the model's reading of R46, log 8). -/
def Obligations.StepRunsTheDecodedInstruction : Prop :=
  (∀ (s : State) (w : BitVec 160) (rest : List (BitVec 160)) (i : Instr),
    s.phase = .idle → s.requests = w :: rest → decode s.cfg.opc (.hreq w) = .ok i →
    step s = exec i { s with requests := rest }) ∧
  (∀ (s : State) (cdb : List Byte) (k : Continuation) (i : Instr),
    s.phase = .run (.reading cdb k) → decode s.cfg.opc (.cdb10 cdb) = .ok i → step s = exec i s)

/-- The machine waits where nothing can go on: in IDLE with no request presented, and in RUN while the environment has
not answered (70_reset R294: BBR "stays in RUN for ever"; that the step then leaves the state as it is, is the model's
form of it, log 6). -/
def Obligations.WaitingLeavesTheStateAsItIs : Prop :=
  (∀ s : State, s.phase = .idle → s.requests = [] → step s = .next s) ∧
  (∀ (s : State) (path : Path), s.phase = .run (.opening path) → s.openAnswers = [] → step s = .next s) ∧
  (∀ (s : State) (lba : Lba) (count : Count) (flag : Byte) (k : Continuation),
    s.phase = .run (.reading (encodeCommand s.cfg.opc lba count flag) k) → s.cmdAnswers = [] → step s = .next s)

/-- 70_reset R290: a request leaves the port only when it is accepted, in IDLE, the first presented first; a step in
RUN does the same whatever requests wait at the port. -/
def Obligations.RequestsAreAcceptedOneAtATimeInOrder : Prop :=
  (∀ s t : State, step s = .next t →
    t.requests = s.requests ∨ (s.phase = .idle ∧ ∃ w, s.requests = w :: t.requests)) ∧
  (∀ (s t : State) (q : List (BitVec 160)), s.phase ≠ .idle → step s = .next t →
    step { s with requests := q } = .next { t with requests := q })

/-! ### Reset and the invariant -/

/-- 10_state R51: the reset state of every instance: channel closed, arena empty, `abs = 0`, no view valid, sequencer
in IDLE (so nothing staged and no loop variable); it satisfies every invariant of R36. `State.reset` is it for one
instance. -/
def Obligations.ResetState : Prop :=
  (∀ c : Config,
    let s := State.resetOf c
    s.chOpen = false ∧ s.data = [] ∧ s.mlen = 0 ∧ s.abs = 0 ∧ s.views.length = c.nviews ∧
      (∀ v ∈ s.views, v.valid = false) ∧ s.phase = .idle) ∧
  (∀ c : Config, c.wf = true → (State.resetOf c).ArchInv) ∧
  ∃ c : Config, c.wf = true ∧ State.reset = State.resetOf c

/-- The invariant of the machine holds at reset, of this hardware and of every instance (10_state R51). -/
def Obligations.InvariantHoldsAtReset : Prop :=
  State.reset.Inv ∧ ∀ c : Config, c.wf = true → (State.resetOf c).Inv

/-- Every step keeps the invariant: (I-a) to (I-e) of 10_state R36, the canonical form of the arena, the view table's
size, and what the sequencer holds (R46, R47, 42_block_buffer R195); from every state that has it. -/
def Obligations.EveryStepKeepsTheInvariant : Prop :=
  ∀ s t : State, s.Inv → step s = .next t → t.Inv

/-- From a state with the invariant the machine never stops: every step answers a next state. -/
def Obligations.NoStepFaults : Prop :=
  ∀ s : State, s.Inv → ∃ t, step s = .next t

/-- Reset as an event (70_reset R280, R281): every element takes its reset value, the channel closes without a
`DevClose`, no response is given. That it is a function which no step calls is the model's choice (log 16); so are the
values 0 that `ch_path` and every `rel` take, as at reset: 10_state R51 calls them unspecified (log 3). -/
def Obligations.HardResetSendsNothing : Prop :=
  ∀ s : State,
    let t := s.hardReset
    t.sameArch (State.resetOf s.cfg) ∧ t.phase = .idle ∧ t.trace = s.trace ∧ t.responses = s.responses

/-! ### ENC -/

/-- ENC (40_command_encoder R121, R122): in range it answers the 10 bytes of the command, out of range `BoundsError`;
in both cases it writes no state and sends nothing, whether the channel is open or closed. -/
def Obligations.EncGivesTheCommand : Prop :=
  (∀ h : Hreq, h.op = 0x01 → h.decode = .ok (.enc h.a h.b h.flag)) ∧
  ∀ (s : State) (lba count : Offset) (flag : Byte),
    (lba.toNat ≤ 2 ^ 32 - 1 → count.toNat ≤ 65535 →
      exec (.enc lba count flag) s = .next (s.after (success
        [ s.cfg.opc, flag,
          BitVec.ofNat 8 (lba.toNat / 2 ^ 24), BitVec.ofNat 8 (lba.toNat / 2 ^ 16), BitVec.ofNat 8 (lba.toNat / 2 ^ 8),
          BitVec.ofNat 8 lba.toNat,
          flag,
          BitVec.ofNat 8 (count.toNat / 2 ^ 8), BitVec.ofNat 8 count.toNat,
          0x00 ]))) ∧
    (lba.toNat > 2 ^ 32 - 1 ∨ count.toNat > 65535 →
      exec (.enc lba count flag) s = .next (s.after (failure .boundsError)))

/-! ### The device channel -/

/-- OPEN (41_device_channel R145, R147): refused while open, with nothing sent; otherwise one `DevOpen` and the status
its answer gives, the channel opening on `Granted` only. Nothing else changes. -/
def Obligations.OpenOpensTheChannel : Prop :=
  (∀ h : Hreq, h.op = 0x02 → h.decode = .ok (.openDev h.a)) ∧
  ∀ (s : State) (path : Path),
    (s.chOpen = true → exec (.openDev path) s = .next (s.after (failure .openFailed))) ∧
    (∀ (answer : OpenAnswer) (rest : List OpenAnswer), s.chOpen = false → s.openAnswers = answer :: rest →
      let u : State := { s with trace := s.trace ++ [.devOpen path], openAnswers := rest }
      exec (.openDev path) s = .next (match answer with
        | .granted => { u with chOpen := true, chPath := path }.after (success [])
        | .accessDenied => u.after (failure .permissionDenied)
        | .notFound => u.after (failure .notFound)
        | .otherFailure => u.after (failure .openFailed)))

/-- CLOSE (41_device_channel R150, R151, R152): on an open channel one `DevClose` with the open path and the channel is
closed; on a closed one `Closed`, nothing sent. `ch_open` is the one element written; that `ch_path`, which nothing
reads then, keeps its bits is the model's (log 4). -/
def Obligations.CloseClosesTheChannel : Prop :=
  (∀ h : Hreq, h.op = 0x03 → h.decode = .ok .closeDev) ∧
  ∀ s : State,
    (s.chOpen = true →
      exec .closeDev s = .next
        ({ s with trace := s.trace ++ [DevEvent.devClose s.chPath], chOpen := false }.after (success []))) ∧
    (s.chOpen = false → exec .closeDev s = .next (s.after (failure .closed)))

/-- RDBLK (41_device_channel R154, R155, R156, R158): range, then channel, then one command of the 10 bytes of
`Encode(lba, count, flag)` with transfer length `count * BS`; the answer is accepted exactly when it is `ok` and has
that length, its bytes are the payload, and any other answer is `IOError`, with no second command. Neither the arena nor
a view changes. -/
def Obligations.RdblkReadsBlocks : Prop :=
  (∀ h : Hreq, h.op = 0x04 → h.decode = .ok (.rdblk h.a h.b h.flag)) ∧
  ∀ (s : State) (lba count : Offset) (flag : Byte),
    (lba.toNat > 2 ^ 32 - 1 ∨ count.toNat > 65535 →
      exec (.rdblk lba count flag) s = .next (s.after (failure .boundsError))) ∧
    (lba.toNat ≤ 2 ^ 32 - 1 → count.toNat ≤ 65535 → s.chOpen = false →
      exec (.rdblk lba count flag) s = .next (s.after (failure .closed))) ∧
    (lba.toNat ≤ 2 ^ 32 - 1 → count.toNat ≤ 65535 → s.chOpen = true →
      let cdb := encodeCommand s.cfg.opc (BitVec.ofNat 32 lba.toNat) (BitVec.ofNat 16 count.toNat) flag
      let u : State := { s with trace := s.trace ++ [.devCmd s.chPath cdb (count.toNat * s.cfg.bs)] }
      ∀ answer rest, s.cmdAnswers = answer :: rest →
        (answer.ok = true ∧ answer.bytes.length = count.toNat * s.cfg.bs →
          exec (.rdblk lba count flag) s = .next ({ u with cmdAnswers := rest }.after (success answer.bytes))) ∧
        (¬ (answer.ok = true ∧ answer.bytes.length = count.toNat * s.cfg.bs) →
          exec (.rdblk lba count flag) s = .next ({ u with cmdAnswers := rest }.after (failure .ioError))))

/-- An OPEN or an RDBLK whose primitive has no answer yet (41_device_channel R141, R143, 60_exceptions R255): it has sent
the primitive, waits in RUN, gives no response and changes nothing else. The form of the waiting state is the model's
(log 6). -/
def Obligations.UnansweredOperationsWait : Prop :=
  (∀ (s : State) (path : Path), s.chOpen = false → s.openAnswers = [] →
    exec (.openDev path) s =
      .next { s with trace := s.trace ++ [.devOpen path], phase := .run (.opening path) }) ∧
  (∀ (s : State) (lba count : Offset) (flag : Byte), lba.toNat ≤ 2 ^ 32 - 1 → count.toNat ≤ 65535 →
    s.chOpen = true → s.cmdAnswers = [] →
    let cdb := encodeCommand s.cfg.opc (BitVec.ofNat 32 lba.toNat) (BitVec.ofNat 16 count.toNat) flag
    exec (.rdblk lba count flag) s = .next { s with
      trace := s.trace ++ [.devCmd s.chPath cdb (count.toNat * s.cfg.bs)]
      phase := .run (.reading cdb .blocks) })

/-- The answer to the `DevOpen` of an OPEN that waits (41_device_channel R141, R145, R146): the step ends that OPEN with
the status the answer gives, the channel opening on `Granted` only, and sends nothing more; with no answer it goes on
waiting. No request is accepted meanwhile (70_reset R290). That the answer is taken by a step of its own is the model's
form (log 6). -/
def Obligations.LateDevOpenAnswerEndsTheOpen : Prop :=
  ∀ (s : State) (path : Path), s.phase = .run (.opening path) →
    (s.openAnswers = [] → step s = .next s) ∧
    (∀ (answer : OpenAnswer) (rest : List OpenAnswer), s.openAnswers = answer :: rest →
      let u : State := { s with openAnswers := rest }
      step s = .next (match answer with
        | .granted => { u with chOpen := true, chPath := path }.after (success [])
        | .accessDenied => u.after (failure .permissionDenied)
        | .notFound => u.after (failure .notFound)
        | .otherFailure => u.after (failure .openFailed)))

/-- READ10 as the command of an RDBLK that waits (41_device_channel R154 to R156): the answer ends the RDBLK as it would
have at once; with no answer the machine waits (log 6, log 8). For a command that does not stand on the port it stops
by name: BBR "never receives or decodes a command" (30_encoding R90; log 9). -/
def Obligations.Read10EndsAWaitingRdblk : Prop :=
  ∀ (s : State) (flag : Byte) (lba : Lba) (count : Count),
    (s.phase = .run (.reading (encodeCommand s.cfg.opc lba count flag) .blocks) →
      (s.cmdAnswers = [] → exec (.read10 flag lba count) s = .next s) ∧
      (∀ answer rest, s.cmdAnswers = answer :: rest →
        (answer.ok = true ∧ answer.bytes.length = count.toNat * s.cfg.bs →
          exec (.read10 flag lba count) s = .next ({ s with cmdAnswers := rest }.after (success answer.bytes))) ∧
        (¬ (answer.ok = true ∧ answer.bytes.length = count.toNat * s.cfg.bs) →
          exec (.read10 flag lba count) s = .next ({ s with cmdAnswers := rest }.after (failure .ioError))))) ∧
    ((∀ k, s.phase ≠ .run (.reading (encodeCommand s.cfg.opc lba count flag) k)) →
      exec (.read10 flag lba count) s = .fault .noCommandOutstanding)

/-- READ10 as the command of an extension that waits, one answer at a time. That READ10 is what is executed there is the
model's choice (log 8): BBR "never receives or decodes a command" (30_encoding R90). The rules give the extension what
its answer does to it (42_block_buffer R188 to R191, R195): a rejected answer discards the stage and ends the read with `IOError`; an accepted one that is not the last is staged and
the next command sent; the last one commits all staged blocks and answers the read. -/
def Obligations.Read10CarriesAnExtensionOn : Prop :=
  ∀ (s : State) (flag : Byte) (lba : Lba) (count : Count) (e : Extension) (answer : CmdAnswer),
    s.phase = .run (.reading (encodeCommand s.cfg.opc lba count flag) (.extension e)) →
    s.cmdAnswers = [answer] →
    let u : State := { s with cmdAnswers := [] }
    (¬ answer.isBlock s.cfg.bs → exec (.read10 flag lba count) s = .next (u.after (failure .ioError))) ∧
    (answer.isBlock s.cfg.bs → e.i + 1 < e.n →
      let e' : Extension := { e with i := e.i + 1, stage := e.stage ++ answer.bytes }
      let cdb := encodeCommand s.cfg.opc (BitVec.ofNat 32 (e.base + (e.i + 1))) 1 s.cfg.extFlag
      exec (.read10 flag lba count) s = .next { u with
        trace := s.trace ++ [.devCmd s.chPath cdb s.cfg.bs]
        phase := .run (.reading cdb (.extension e')) }) ∧
    (answer.isBlock s.cfg.bs → e.i + 1 = e.n → s.Inv →
      ∃ d r, d.wf = true ∧ d.map (·.2) = s.data.map (·.2) ++ e.stage ++ answer.bytes ∧
        r = e.form.response s.cfg.recordOrder (((d.map (·.2)).drop e.start).take e.len) ∧
        exec (.read10 flag lba count) s = .next ({ u with
          data := d, mlen := BitVec.ofNat 64 (s.mlen.toNat + e.n * s.cfg.bs) }.after r))

/-! ### The block buffer: views -/

/-- BINIT (42_block_buffer R171, R172): checks in order, then the arena is emptied and anchored at `abs`, every view
dies and slot `vd` holds the view `(1, rel)`; nothing is sent and the channel is not touched. -/
def Obligations.BinitBuildsTheBuffer : Prop :=
  (∀ h : Hreq, h.op = 0x08 → h.decode = .ok (.binit h.vd h.a h.b)) ∧
  ∀ (s : State) (vd : Byte) (anchor rel : Offset),
    (s.cfg.nviews ≤ vd.toNat → exec (.binit vd anchor rel) s = .next (s.after (failure .illegalRequest))) ∧
    (vd.toNat < s.cfg.nviews → anchor.toNat % s.cfg.bs ≠ 0 →
      exec (.binit vd anchor rel) s = .next (s.after (failure .boundsError))) ∧
    (vd.toNat < s.cfg.nviews → anchor.toNat % s.cfg.bs = 0 → s.views.length = s.cfg.nviews →
      ∃ views, views.length = s.views.length ∧ views[vd.toNat]? = some { valid := true, rel := rel } ∧
        (∀ (j : Nat) (v : View), j ≠ vd.toNat → views[j]? = some v → v.valid = false) ∧
        exec (.binit vd anchor rel) s =
          .next ({ s with data := [], mlen := 0, abs := anchor, views := views }.after (success [])))

/-- DERIVE (42_block_buffer R175, R176): checks in order, then `view[vd] <- (1, view[vs].rel + extra)` and nothing else:
no byte, no device primitive, no other slot. -/
def Obligations.DeriveMakesAView : Prop :=
  (∀ h : Hreq, h.op = 0x09 → h.decode = .ok (.derive h.vd h.vs h.a)) ∧
  ∀ (s : State) (vd vs : Byte) (extra : Offset),
    (s.cfg.nviews ≤ vd.toNat ∨ s.cfg.nviews ≤ vs.toNat →
      exec (.derive vd vs extra) s = .next (s.after (failure .illegalRequest))) ∧
    (∀ v, vd.toNat < s.cfg.nviews → vs.toNat < s.cfg.nviews → s.views[vs.toNat]? = some v →
      (v.valid = false → exec (.derive vd vs extra) s = .next (s.after (failure .noView))) ∧
      (v.valid = true → v.rel.toNat + extra.toNat > 2 ^ 64 - 1 →
        exec (.derive vd vs extra) s = .next (s.after (failure .boundsError))) ∧
      (v.valid = true → v.rel.toNat + extra.toNat ≤ 2 ^ 64 - 1 →
        exec (.derive vd vs extra) s = .next ({ s with
          views := s.views.set vd.toNat
            { valid := true, rel := BitVec.ofNat 64 (v.rel.toNat + extra.toNat) } }.after (success []))))

/-- ADV (42_block_buffer R179, R180): checks in order, then `view[vd].rel <- view[vd].rel + delta` and nothing else. -/
def Obligations.AdvMovesAView : Prop :=
  (∀ h : Hreq, h.op = 0x0A → h.decode = .ok (.adv h.vd h.a)) ∧
  ∀ (s : State) (vd : Byte) (delta : Offset),
    (s.cfg.nviews ≤ vd.toNat → exec (.adv vd delta) s = .next (s.after (failure .illegalRequest))) ∧
    (∀ v, vd.toNat < s.cfg.nviews → s.views[vd.toNat]? = some v →
      (v.valid = false → exec (.adv vd delta) s = .next (s.after (failure .noView))) ∧
      (v.valid = true → v.rel.toNat + delta.toNat > 2 ^ 64 - 1 →
        exec (.adv vd delta) s = .next (s.after (failure .boundsError))) ∧
      (v.valid = true → v.rel.toNat + delta.toNat ≤ 2 ^ 64 - 1 →
        exec (.adv vd delta) s = .next ({ s with
          views := s.views.set vd.toNat
            { valid := true, rel := BitVec.ofNat 64 (v.rel.toNat + delta.toNat) } }.after (success []))))

/-- DERIVE into its own source slot has exactly the effect of ADV (42_block_buffer R177, 30_encoding R107 (b)). -/
def Obligations.DeriveIntoItsSourceIsAdvance : Prop :=
  ∀ (s : State) (v : Byte) (extra : Offset), exec (.derive v v extra) s = exec (.adv v extra) s

/-! ### The block buffer: reads -/

/-- The refusals of RDB, TXT, U8, I8, U16, I16, U32, I32 in their order (42_block_buffer R183, R184, R186, R187,
43_field_accessors R219, 60_exceptions R248): index, view, arithmetic, capacity and block addresses, channel. Each
changes nothing and sends nothing. -/
def Obligations.ReadsRefuseInOrder : Prop :=
  ∀ (s : State) (i : Instr) (vs : Byte) (offset : Offset) (len : Nat), readOf i = some (vs, offset, len) →
    (s.cfg.nviews ≤ vs.toNat → exec i s = .next (s.after (failure .illegalRequest))) ∧
    (∀ v, vs.toNat < s.cfg.nviews → s.views[vs.toNat]? = some v →
      (v.valid = false → exec i s = .next (s.after (failure .noView))) ∧
      (v.valid = true → v.rel.toNat + offset.toNat + len > 2 ^ 64 - 1 →
        exec i s = .next (s.after (failure .boundsError)))) ∧
    (∀ start n base, s.readsAt i start len → s.lacks (start + len) n base →
      (¬ s.hasRoom n ∨ base + n - 1 > 2 ^ 32 - 1 → exec i s = .next (s.after (failure .boundsError))) ∧
      (s.hasRoom n → base + n - 1 ≤ 2 ^ 32 - 1 → s.chOpen = false →
        exec i s = .next (s.after (failure .closed))))

/-- RDB, TXT, U8, I8, U16, I16, U32, I32 on bytes that are present: the answer of those bytes, and nothing else changes:
no device primitive, whether the channel is open or closed (42_block_buffer R191, R193, 20_memory R75, 60_exceptions
R243; the values are those of 43_field_accessors R212 to R218). -/
def Obligations.ReadsOfPresentBytes : Prop :=
  ∀ (s : State) (i : Instr) (start len : Nat), s.ArchInv → s.readsAt i start len →
    start + len ≤ s.mlen.toNat →
    ∃ r, readAnswer s.cfg.recordOrder i (s.slice start len) = some r ∧ exec i s = .next (s.after r)

/-- The core algorithm, when every block arrives (42_block_buffer R183 to R191): RDB, TXT, U8, I8, U16, I16, U32, I32
that need `n` blocks send `n` commands of one block each, ascending from `ext_base`, append exactly the bytes of the
`n` answers and answer `data[start : start + length]` of the grown arena. Nothing else changes. -/
def Obligations.ReadsExtendTheArena : Prop :=
  ∀ (s : State) (i : Instr) (start len n base : Nat) (answers rest : List CmdAnswer), s.ArchInv →
    s.readsAt i start len → s.lacks (start + len) n base → s.hasRoom n → base + n - 1 ≤ 2 ^ 32 - 1 →
    s.chOpen = true → s.cmdAnswers = answers ++ rest → answers.length = n → (∀ a ∈ answers, a.isBlock s.cfg.bs) →
    ∃ d r,
      let t : State := { s with
        data := d
        mlen := BitVec.ofNat 64 (s.mlen.toNat + n * s.cfg.bs)
        trace := s.trace ++ extensionCommands s.cfg s.chPath base n
        cmdAnswers := rest }
      d.wf = true ∧ d.map (·.2) = s.data.map (·.2) ++ stagedBytes answers ∧
        readAnswer s.cfg.recordOrder i (t.slice start len) = some r ∧ exec i s = .next (t.after r)

/-- A failing extension (42_block_buffer R189): a closed channel ends the read with `Closed` before any command is sent,
and the first rejected answer ends it with `IOError`; no further command is sent and the blocks already fetched are
discarded: the commands sent stay in the device trace, and nothing else of the state changes. A later read of the same
range therefore starts the extension again from the same block. -/
def Obligations.FailedExtensionLeavesTheArena : Prop :=
  ∀ (s : State) (i : Instr) (start len n base : Nat), s.readsAt i start len → s.lacks (start + len) n base →
    s.hasRoom n → base + n - 1 ≤ 2 ^ 32 - 1 →
    (s.chOpen = false → exec i s = .next (s.after (failure .closed))) ∧
    (∀ (answers rest : List CmdAnswer) (bad : CmdAnswer), s.chOpen = true →
      s.cmdAnswers = answers ++ bad :: rest → answers.length < n → (∀ a ∈ answers, a.isBlock s.cfg.bs) →
      ¬ bad.isBlock s.cfg.bs →
      let t : State := { s with
        trace := s.trace ++ extensionCommands s.cfg s.chPath base (answers.length + 1)
        cmdAnswers := rest }.after (failure .ioError)
      exec i s = .next t ∧ t.readsAt i start len ∧ t.lacks (start + len) n base)

/-- A suspended extension (42_block_buffer R195, 10_state R47, 70_reset R294): when the environment has answered fewer
than `n` commands, all accepted, the next command stands on the device port, the fetched blocks are staged, and neither
the arena nor a view has changed (log 6). -/
def Obligations.SuspendedExtensionHoldsItsStage : Prop :=
  ∀ (s : State) (i : Instr) (start len n base : Nat),
    s.readsAt i start len → s.lacks (start + len) n base → s.hasRoom n → base + n - 1 ≤ 2 ^ 32 - 1 →
    s.chOpen = true → s.cmdAnswers.length < n → (∀ a ∈ s.cmdAnswers, a.isBlock s.cfg.bs) →
    ∃ e : Extension, e.start = start ∧ e.len = len ∧ e.n = n ∧ e.base = base ∧ e.i = s.cmdAnswers.length ∧
      e.stage = stagedBytes s.cmdAnswers ∧
      exec i s = .next { s with
        trace := s.trace ++ extensionCommands s.cfg s.chPath base (s.cmdAnswers.length + 1)
        cmdAnswers := []
        phase := .run (.reading
          (encodeCommand s.cfg.opc (BitVec.ofNat 32 (base + s.cmdAnswers.length)) 1 s.cfg.extFlag) (.extension e)) }

/-- When the answers come makes no difference (41_device_channel R141, R145, 42_block_buffer R195, 20_memory R77): a step
that ran out of answers to its commands, or to its `DevOpen`, followed by a step with the late ones, is one step with
all of them. That an operation with no answer ends a step waiting, and the next step goes on with it, is the model's
form (log 6). -/
def Obligations.LateAnswersChangeNothing : Prop :=
  (∀ (s t : State) (early late : List CmdAnswer) (cdb : List Byte) (k : Continuation),
    step { s with cmdAnswers := early } = .next t → t.phase = .run (.reading cdb k) →
    step { t with cmdAnswers := late } = step { s with cmdAnswers := early ++ late }) ∧
  (∀ (s t : State) (early late : List OpenAnswer) (path : Path),
    step { s with openAnswers := early } = .next t → t.phase = .run (.opening path) →
    step { t with openAnswers := late } = step { s with openAnswers := early ++ late })

/-- TXT returns exactly what RDB returns, with the same effect (43_field_accessors R218). -/
def Obligations.TxtReturnsWhatRdbReturns : Prop :=
  ∀ (s t : State) (vs : Byte) (offset length : Offset), t.phase = .idle →
    (exec (.txt vs offset length) s = .next t ↔ exec (.rdb vs offset length) s = .next t)

/-- The number of blocks (42_block_buffer R185): extension happens exactly when `end ≥ mlen`; then `n` is
`ceil((end + 1 - mlen) / BS)`, at least 1, and the least `n` with `mlen + n * BS > end`; with the four boundary cases
(`stop` is `end + 1`). -/
def Obligations.BlockCountIsLeast : Prop :=
  ∀ (bs mlen stop : Nat), 0 < bs →
    (needsExtension mlen stop = true ↔ (mlen : Int) ≤ (stop : Int) - 1) ∧
    (mlen < stop →
      let n := extensionBlocks bs mlen stop
      n = (stop - mlen + bs - 1) / bs ∧ 1 ≤ n ∧ stop - 1 < mlen + n * bs ∧
        ∀ m, stop - 1 < mlen + m * bs → n ≤ m) ∧
    needsExtension mlen mlen = false ∧ extensionBlocks bs mlen (mlen + 1) = 1 ∧
    extensionBlocks bs mlen (mlen + bs) = 1 ∧ extensionBlocks bs mlen (mlen + bs + 1) = 2

/-- After a read that answers `Ok` (42_block_buffer R192): the answer is that of `data[start : start + length]`; (a) the
bytes asked for are present; (b) `mlen` is a multiple of `BS` and has grown by exactly `n * BS`, with no growth where no
extension was needed; (c) the old bytes are a prefix; (d) a read through any view up to no later a byte sends no command
and leaves the architectural state as it is; (e) and it answers from the same bytes, every byte that was present reading
the same as before. -/
def Obligations.ReadGuarantees : Prop :=
  ∀ (s t : State) (i : Instr) (start len : Nat) (r : Response), s.ArchInv → s.readsAt i start len →
    exec i s = .next t → t.responses = s.responses ++ [r] → r.status = .ok →
    readAnswer s.cfg.recordOrder i (t.slice start len) = some r ∧
    start + len ≤ t.mlen.toNat ∧
    (t.mlen.toNat % s.cfg.bs = 0 ∧ (start + len ≤ s.mlen.toNat → t.mlen = s.mlen) ∧
      (∀ n base, s.lacks (start + len) n base → t.mlen.toNat = s.mlen.toNat + n * s.cfg.bs)) ∧
    s.data <+: t.data ∧
    (∀ (j : Instr) (start' len' : Nat), t.readsAt j start' len' → start' + len' ≤ start + len →
      ∃ r', readAnswer s.cfg.recordOrder j (t.slice start' len') = some r' ∧ exec j t = .next (t.after r')) ∧
    (∀ a, a < s.mlen.toNat → t.data.read a = s.data.read a)

/-- Reads mirror the device (10_state R37, 20_memory R64, 41_device_channel R144), for RDB, TXT, U8, I8, U16, I16, U32 and
I32: where the arena holds the bytes of a disk image from its anchor on, and the bytes asked for are present or the
environment answers the commands of the extension from that image, the read answers the image's bytes at the device byte
addresses `abs + start` on (their payload, or the value they spell), and the arena still mirrors the image. -/
def Obligations.ReadsMirrorTheDisk : Prop :=
  ∀ (s : State) (disk : Nat → List Byte) (nblk : Nat) (i : Instr) (start len : Nat),
    s.ArchInv → s.mirrors disk → (∀ b, (disk b).length = s.cfg.bs) → s.readsAt i start len →
    (start + len ≤ s.mlen.toNat ∨
      ∃ n base rest, s.lacks (start + len) n base ∧ s.hasRoom n ∧ base + n - 1 ≤ 2 ^ 32 - 1 ∧ base + n ≤ nblk ∧
        s.chOpen = true ∧ s.cmdAnswers = (List.range n).map (fun j => imageAnswer disk nblk (base + j) 1) ++ rest) →
    ∃ t bytes r, exec i s = .next t ∧ t.mirrors disk ∧ t.ArchInv ∧ t.phase = .idle ∧
      t.responses = s.responses ++ [r] ∧ readAnswer s.cfg.recordOrder i bytes = some r ∧ bytes.length = len ∧
      ∀ k, k < len → bytes[k]? = diskByte disk s.cfg.bs (s.abs.toNat + start + k)

/-- Mixed widths at one offset (20_memory R70): the 32-bit and 16-bit values are tied as each byte order says. -/
def Obligations.MixedWidthsAgree : Prop :=
  ∀ b0 b1 b2 b3 : Byte,
    (unsignedField 8 .le [b0]).toNat = b0.toNat ∧ (unsignedField 8 .be [b0]).toNat = b0.toNat ∧
    (unsignedField 16 .le [b0, b1]).toNat = b0.toNat + 256 * b1.toNat ∧
    (unsignedField 16 .be [b0, b1]).toNat = 256 * b0.toNat + b1.toNat ∧
    (unsignedField 32 .le [b0, b1, b2, b3]).toNat =
      (unsignedField 16 .le [b0, b1]).toNat + 65536 * (unsignedField 16 .le [b2, b3]).toNat ∧
    (unsignedField 32 .be [b0, b1, b2, b3]).toNat =
      65536 * (unsignedField 16 .be [b0, b1]).toNat + (unsignedField 16 .be [b2, b3]).toNat

/-! ### Whole-machine rules -/

/-- Precision (60_exceptions R250): the architectural state changes only in a step that answers `Ok`: with any other
status, and while an operation waits, it is bit for bit what it was; what was sent stays in the device trace. -/
def Obligations.FailuresArePrecise : Prop :=
  ∀ s t : State, step s = .next t →
    s.trace <+: t.trace ∧
    ((∃ r, t.responses = s.responses ++ [r] ∧ r.status = .ok ∧ t.phase = .idle) ∨ s.sameArch t)

/-- One answer each (30_encoding R104, 60_exceptions R251): an operation either gives exactly one response and the
machine is in IDLE, or it gives none yet and waits on the device port; a failure has no value and no payload. -/
def Obligations.OneResponseOrWaiting : Prop :=
  ∀ (i : Instr) (s t : State), exec i s = .next t →
    (∃ r, t.responses = s.responses ++ [r] ∧ t.phase = .idle ∧
      (r.status ≠ .ok → r.val = none ∧ r.payload = [])) ∨
    (t.responses = s.responses ∧ ∃ w, t.phase = .run w)

/-- Which operation can raise what: no host operation gives a status its row of 60_exceptions R253 does not list. The
READ10 clause is the model's (log 8), for R253 has no such row: READ10 ends the RDBLK or the read that sent it, with `Ok`
or `IOError`, as 41_device_channel R156 and 42_block_buffer R189 to R191 have the answer to a command end them. -/
def Obligations.StatusesOfEachOperation : Prop :=
  ∀ (i : Instr) (s t : State) (r : Response), exec i s = .next t → t.responses = s.responses ++ [r] →
    r.status ∈ (match i with
      | .enc _ _ _ => [Status.ok, .boundsError]
      | .openDev _ => [.ok, .openFailed, .permissionDenied, .notFound]
      | .closeDev => [.ok, .closed]
      | .rdblk _ _ _ => [.ok, .boundsError, .closed, .ioError]
      | .binit _ _ _ => [.ok, .illegalRequest, .boundsError]
      | .derive _ _ _ => [.ok, .illegalRequest, .noView, .boundsError]
      | .adv _ _ => [.ok, .illegalRequest, .noView, .boundsError]
      | .rdb _ _ _ => [.ok, .illegalRequest, .noView, .boundsError, .closed, .ioError]
      | .u8 _ _ => [.ok, .illegalRequest, .noView, .boundsError, .closed, .ioError]
      | .i8 _ _ => [.ok, .illegalRequest, .noView, .boundsError, .closed, .ioError]
      | .u16 _ _ => [.ok, .illegalRequest, .noView, .boundsError, .closed, .ioError]
      | .i16 _ _ => [.ok, .illegalRequest, .noView, .boundsError, .closed, .ioError]
      | .u32 _ _ => [.ok, .illegalRequest, .noView, .boundsError, .closed, .ioError]
      | .i32 _ _ => [.ok, .illegalRequest, .noView, .boundsError, .closed, .ioError]
      | .txt _ _ _ => [.ok, .illegalRequest, .noView, .boundsError, .closed, .ioError]
      | .read10 _ _ _ => [.ok, .ioError])

/-- Every command the machine sends is a read command (30_encoding R90, R93, R95, R96): 10 bytes, `OPC` first, zero
last, the one flag at offsets 1 and 6, with the transfer length `count * BS` of its own count field, on the open
path. -/
def Obligations.OnlyReadCommandsAreSent : Prop :=
  ∀ s t : State, step s = .next t → ∃ sent, t.trace = s.trace ++ sent ∧
    ∀ (p : Path) (cdb : List Byte) (x : Nat), DevEvent.devCmd p cdb x ∈ sent →
      p = s.chPath ∧ cdb.length = 10 ∧ cdb[0]? = some s.cfg.opc ∧ cdb[9]? = some 0 ∧ cdb[1]? = cdb[6]? ∧
        x = beValue ((cdb.drop 7).take 2) * s.cfg.bs

/-- The arena is append-only (10_state R33, R52, 20_memory R76): in a step that does not run BINIT the old bytes are a
prefix of the new, `abs` stays, and `mlen` does not shrink. -/
def Obligations.ArenaIsAppendOnly : Prop :=
  ∀ s t : State, s.Inv → step s = .next t →
    (∃ w rest vd anchor rel, s.phase = .idle ∧ s.requests = w :: rest ∧
      decode s.cfg.opc (.hreq w) = .ok (.binit vd anchor rel)) ∨
    (s.data <+: t.data ∧ t.abs = s.abs ∧ s.mlen.toNat ≤ t.mlen.toNat)

/-- The mode bit (10_state R31): `ch_open` is set only on a closed channel, by an OPEN whose `DevOpen` the environment
answers with `Granted`, at once or while it waits, and cleared only by a CLOSE on an open one; `ch_path` changes only
where `ch_open` is set, to the path of that OPEN (R32). An OPEN that waits does so on a closed channel in every state
with the invariant. That `ch_path` keeps its bits under CLOSE is the model's reading (log 4). -/
def Obligations.OnlyOpenAndCloseChangeTheChannel : Prop :=
  ∀ s t : State, step s = .next t →
    (t.chOpen = s.chOpen ∧ t.chPath = s.chPath) ∨
    (t.chOpen = true ∧ s.openAnswers = .granted :: t.openAnswers ∧
      ((s.phase = .run (.opening t.chPath) ∧ (s.Inv → s.chOpen = false)) ∨
        (s.phase = .idle ∧ s.chOpen = false ∧
          ∃ w rest, s.requests = w :: rest ∧ decode s.cfg.opc (.hreq w) = .ok (.openDev t.chPath)))) ∨
    (t.chOpen = false ∧ t.chPath = s.chPath ∧ s.phase = .idle ∧ s.chOpen = true ∧
      ∃ w rest, s.requests = w :: rest ∧ decode s.cfg.opc (.hreq w) = .ok .closeDev)

/-- Offsets only move forward (10_state R40, R41, R43): in an operation that is no BINIT, a slot the operation does not
name as `vd` keeps its view, a valid slot stays valid, and under ADV its `rel` does not decrease. -/
def Obligations.ViewsOnlyMoveForward : Prop :=
  ∀ (i : Instr) (s t : State), exec i s = .next t → (∀ vd anchor rel, i ≠ .binit vd anchor rel) →
    t.views.length = s.views.length ∧
    (∀ (j : Nat) (v : View), s.views[j]? = some v → v.valid = true → ∃ v', t.views[j]? = some v' ∧ v'.valid = true ∧
      ((∀ vd vs extra, i = .derive vd vs extra → vd.toNat ≠ j) → v.rel.toNat ≤ v'.rel.toNat) ∧
      ((∀ vd vs extra, i = .derive vd vs extra → vd.toNat ≠ j) → (∀ vd delta, i = .adv vd delta → vd.toNat ≠ j) →
        v' = v))

/-- A used view index of `NVIEWS` or more makes the request illegal: status `IllegalRequest`, no state change
(30_encoding R102, R103). -/
def Obligations.IllFormedRequestsAreIllegal : Prop :=
  ∀ (s : State) (w : BitVec 160) (rest : List (BitVec 160)) (i : Instr), s.phase = .idle → s.requests = w :: rest →
    decode s.cfg.opc (.hreq w) = .ok i → i.wf s.cfg = false →
    step s = .next ({ s with requests := rest }.after (failure .illegalRequest))
end

