-- ==== Sys2Proof/Laws/Decode.lean ====
section
/-! SUPPORT. The packing of a host request and the bytes of a command, field by field. -/

namespace Sys2Proof

/-- Concatenation as arithmetic. -/
theorem toNat_append_eq {n m : Nat} (x : BitVec n) (y : BitVec m) :
    (x ++ y).toNat = x.toNat * 2 ^ m + y.toNat := by
  rw [BitVec.toNat_append, ← Nat.shiftLeft_add_eq_or_of_lt y.isLt, Nat.shiftLeft_eq]

/-- A slice as arithmetic. -/
theorem toNat_extract_eq {n : Nat} (x : BitVec n) (start len : Nat) :
    (x.extractLsb' start len).toNat = x.toNat / 2 ^ start % 2 ^ len := by
  rw [BitVec.extractLsb'_toNat, Nat.shiftRight_eq_div_pow]

theorem Hreq.pack_toNat (h : Hreq) : h.pack.toNat =
    ((((h.op.toNat * 2 ^ 8 + h.vd.toNat) * 2 ^ 8 + h.vs.toNat) * 2 ^ 8 + h.flag.toNat) * 2 ^ 64 + h.a.toNat) * 2 ^ 64
      + h.b.toNat := by
  simp only [Hreq.pack, toNat_append_eq]

/-- Every field of a packed request is where the unpacking looks for it (30_encoding R97). -/
theorem Hreq.unpack_pack (h : Hreq) : Hreq.unpack h.pack = h := by
  have e := h.pack_toNat
  have h1 := h.op.isLt
  have h2 := h.vd.isLt
  have h3 := h.vs.isLt
  have h4 := h.flag.isLt
  have h5 := h.a.isLt
  have h6 := h.b.isLt
  obtain ⟨op, vd, vs, flag, a, b⟩ := h
  simp only at e h1 h2 h3 h4 h5 h6
  simp only [Hreq.unpack, Hreq.mk.injEq]
  refine ⟨?_, ?_, ?_, ?_, ?_, ?_⟩ <;> apply BitVec.eq_of_toNat_eq <;> rw [toNat_extract_eq, e] <;> omega

/-- The four bytes of a block address, put together again. -/
theorem lba_bytes (x : Lba) :
    x.extractLsb' 24 8 ++ x.extractLsb' 16 8 ++ x.extractLsb' 8 8 ++ x.extractLsb' 0 8 = x := by
  have h := x.isLt
  apply BitVec.eq_of_toNat_eq
  simp only [toNat_append_eq, toNat_extract_eq]
  omega

/-- The two bytes of a count, put together again. -/
theorem count_bytes (x : Count) : x.extractLsb' 8 8 ++ x.extractLsb' 0 8 = x := by
  have h := x.isLt
  apply BitVec.eq_of_toNat_eq
  simp only [toNat_append_eq, toNat_extract_eq]
  omega

end Sys2Proof
end

