-- ==== Sys2Proof/Laws/State.lean ====
section
/-! SUPPORT. One lemma per field for each update of the state, true by rfl, so that no later proof unfolds a record
update. -/

namespace Sys2Proof.Machine

/-! #### `State.respond` -/

@[simp] theorem State.respond_cfg (s : State) (r : Response) : (s.respond r).cfg = s.cfg := rfl
@[simp] theorem State.respond_chOpen (s : State) (r : Response) : (s.respond r).chOpen = s.chOpen := rfl
@[simp] theorem State.respond_chPath (s : State) (r : Response) : (s.respond r).chPath = s.chPath := rfl
@[simp] theorem State.respond_data (s : State) (r : Response) : (s.respond r).data = s.data := rfl
@[simp] theorem State.respond_mlen (s : State) (r : Response) : (s.respond r).mlen = s.mlen := rfl
@[simp] theorem State.respond_abs (s : State) (r : Response) : (s.respond r).abs = s.abs := rfl
@[simp] theorem State.respond_views (s : State) (r : Response) : (s.respond r).views = s.views := rfl
@[simp] theorem State.respond_phase (s : State) (r : Response) : (s.respond r).phase = .idle := rfl
@[simp] theorem State.respond_requests (s : State) (r : Response) : (s.respond r).requests = s.requests := rfl
@[simp] theorem State.respond_responses (s : State) (r : Response) :
    (s.respond r).responses = s.responses ++ [r] := rfl
@[simp] theorem State.respond_trace (s : State) (r : Response) : (s.respond r).trace = s.trace := rfl
@[simp] theorem State.respond_openAnswers (s : State) (r : Response) :
    (s.respond r).openAnswers = s.openAnswers := rfl
@[simp] theorem State.respond_cmdAnswers (s : State) (r : Response) : (s.respond r).cmdAnswers = s.cmdAnswers := rfl

/-! #### `State.after` -/

@[simp] theorem State.after_cfg (s : State) (r : Response) : (s.after r).cfg = s.cfg := rfl
@[simp] theorem State.after_chOpen (s : State) (r : Response) : (s.after r).chOpen = s.chOpen := rfl
@[simp] theorem State.after_chPath (s : State) (r : Response) : (s.after r).chPath = s.chPath := rfl
@[simp] theorem State.after_data (s : State) (r : Response) : (s.after r).data = s.data := rfl
@[simp] theorem State.after_mlen (s : State) (r : Response) : (s.after r).mlen = s.mlen := rfl
@[simp] theorem State.after_abs (s : State) (r : Response) : (s.after r).abs = s.abs := rfl
@[simp] theorem State.after_views (s : State) (r : Response) : (s.after r).views = s.views := rfl
@[simp] theorem State.after_phase (s : State) (r : Response) : (s.after r).phase = .idle := rfl
@[simp] theorem State.after_requests (s : State) (r : Response) : (s.after r).requests = s.requests := rfl
@[simp] theorem State.after_responses (s : State) (r : Response) : (s.after r).responses = s.responses ++ [r] := rfl
@[simp] theorem State.after_trace (s : State) (r : Response) : (s.after r).trace = s.trace := rfl
@[simp] theorem State.after_openAnswers (s : State) (r : Response) : (s.after r).openAnswers = s.openAnswers := rfl
@[simp] theorem State.after_cmdAnswers (s : State) (r : Response) : (s.after r).cmdAnswers = s.cmdAnswers := rfl

/-! #### `State.raise` -/

@[simp] theorem State.raise_cfg (s : State) (st : Status) : (s.raise st).cfg = s.cfg := rfl
@[simp] theorem State.raise_chOpen (s : State) (st : Status) : (s.raise st).chOpen = s.chOpen := rfl
@[simp] theorem State.raise_chPath (s : State) (st : Status) : (s.raise st).chPath = s.chPath := rfl
@[simp] theorem State.raise_data (s : State) (st : Status) : (s.raise st).data = s.data := rfl
@[simp] theorem State.raise_mlen (s : State) (st : Status) : (s.raise st).mlen = s.mlen := rfl
@[simp] theorem State.raise_abs (s : State) (st : Status) : (s.raise st).abs = s.abs := rfl
@[simp] theorem State.raise_views (s : State) (st : Status) : (s.raise st).views = s.views := rfl
@[simp] theorem State.raise_phase (s : State) (st : Status) : (s.raise st).phase = .idle := rfl
@[simp] theorem State.raise_requests (s : State) (st : Status) : (s.raise st).requests = s.requests := rfl
@[simp] theorem State.raise_responses (s : State) (st : Status) :
    (s.raise st).responses = s.responses ++ [{ status := st, val := none, payload := [] }] := rfl
@[simp] theorem State.raise_trace (s : State) (st : Status) : (s.raise st).trace = s.trace := rfl
@[simp] theorem State.raise_openAnswers (s : State) (st : Status) : (s.raise st).openAnswers = s.openAnswers := rfl
@[simp] theorem State.raise_cmdAnswers (s : State) (st : Status) : (s.raise st).cmdAnswers = s.cmdAnswers := rfl

/-! #### `State.succeed` -/

@[simp] theorem State.succeed_cfg (s : State) (p : List Byte) : (s.succeed p).cfg = s.cfg := rfl
@[simp] theorem State.succeed_chOpen (s : State) (p : List Byte) : (s.succeed p).chOpen = s.chOpen := rfl
@[simp] theorem State.succeed_chPath (s : State) (p : List Byte) : (s.succeed p).chPath = s.chPath := rfl
@[simp] theorem State.succeed_data (s : State) (p : List Byte) : (s.succeed p).data = s.data := rfl
@[simp] theorem State.succeed_mlen (s : State) (p : List Byte) : (s.succeed p).mlen = s.mlen := rfl
@[simp] theorem State.succeed_abs (s : State) (p : List Byte) : (s.succeed p).abs = s.abs := rfl
@[simp] theorem State.succeed_views (s : State) (p : List Byte) : (s.succeed p).views = s.views := rfl
@[simp] theorem State.succeed_phase (s : State) (p : List Byte) : (s.succeed p).phase = .idle := rfl
@[simp] theorem State.succeed_requests (s : State) (p : List Byte) : (s.succeed p).requests = s.requests := rfl
@[simp] theorem State.succeed_responses (s : State) (p : List Byte) :
    (s.succeed p).responses = s.responses ++ [{ status := .ok, val := none, payload := p }] := rfl
@[simp] theorem State.succeed_trace (s : State) (p : List Byte) : (s.succeed p).trace = s.trace := rfl
@[simp] theorem State.succeed_openAnswers (s : State) (p : List Byte) :
    (s.succeed p).openAnswers = s.openAnswers := rfl
@[simp] theorem State.succeed_cmdAnswers (s : State) (p : List Byte) : (s.succeed p).cmdAnswers = s.cmdAnswers := rfl

/-! #### `State.arenaAppend` -/

@[simp] theorem State.arenaAppend_cfg (s : State) (b : List Byte) : (s.arenaAppend b).cfg = s.cfg := rfl
@[simp] theorem State.arenaAppend_chOpen (s : State) (b : List Byte) : (s.arenaAppend b).chOpen = s.chOpen := rfl
@[simp] theorem State.arenaAppend_chPath (s : State) (b : List Byte) : (s.arenaAppend b).chPath = s.chPath := rfl
@[simp] theorem State.arenaAppend_data (s : State) (b : List Byte) : (s.arenaAppend b).data = s.data.append b := rfl
@[simp] theorem State.arenaAppend_mlen (s : State) (b : List Byte) :
    (s.arenaAppend b).mlen = BitVec.ofNat 64 (s.mlen.toNat + b.length) := rfl
@[simp] theorem State.arenaAppend_abs (s : State) (b : List Byte) : (s.arenaAppend b).abs = s.abs := rfl
@[simp] theorem State.arenaAppend_views (s : State) (b : List Byte) : (s.arenaAppend b).views = s.views := rfl
@[simp] theorem State.arenaAppend_phase (s : State) (b : List Byte) : (s.arenaAppend b).phase = s.phase := rfl
@[simp] theorem State.arenaAppend_requests (s : State) (b : List Byte) :
    (s.arenaAppend b).requests = s.requests := rfl
@[simp] theorem State.arenaAppend_responses (s : State) (b : List Byte) :
    (s.arenaAppend b).responses = s.responses := rfl
@[simp] theorem State.arenaAppend_trace (s : State) (b : List Byte) : (s.arenaAppend b).trace = s.trace := rfl
@[simp] theorem State.arenaAppend_openAnswers (s : State) (b : List Byte) :
    (s.arenaAppend b).openAnswers = s.openAnswers := rfl
@[simp] theorem State.arenaAppend_cmdAnswers (s : State) (b : List Byte) :
    (s.arenaAppend b).cmdAnswers = s.cmdAnswers := rfl

/-! #### `State.arenaClear` -/

@[simp] theorem State.arenaClear_cfg (s : State) : s.arenaClear.cfg = s.cfg := rfl
@[simp] theorem State.arenaClear_chOpen (s : State) : s.arenaClear.chOpen = s.chOpen := rfl
@[simp] theorem State.arenaClear_chPath (s : State) : s.arenaClear.chPath = s.chPath := rfl
@[simp] theorem State.arenaClear_data (s : State) : s.arenaClear.data = [] := rfl
@[simp] theorem State.arenaClear_mlen (s : State) : s.arenaClear.mlen = 0 := rfl
@[simp] theorem State.arenaClear_abs (s : State) : s.arenaClear.abs = s.abs := rfl
@[simp] theorem State.arenaClear_views (s : State) : s.arenaClear.views = s.views := rfl
@[simp] theorem State.arenaClear_phase (s : State) : s.arenaClear.phase = s.phase := rfl
@[simp] theorem State.arenaClear_requests (s : State) : s.arenaClear.requests = s.requests := rfl
@[simp] theorem State.arenaClear_responses (s : State) : s.arenaClear.responses = s.responses := rfl
@[simp] theorem State.arenaClear_trace (s : State) : s.arenaClear.trace = s.trace := rfl
@[simp] theorem State.arenaClear_openAnswers (s : State) : s.arenaClear.openAnswers = s.openAnswers := rfl
@[simp] theorem State.arenaClear_cmdAnswers (s : State) : s.arenaClear.cmdAnswers = s.cmdAnswers := rfl

/-! #### `State.setView` -/

@[simp] theorem State.setView_cfg (s : State) (i : Byte) (v : View) : (s.setView i v).cfg = s.cfg := rfl
@[simp] theorem State.setView_chOpen (s : State) (i : Byte) (v : View) : (s.setView i v).chOpen = s.chOpen := rfl
@[simp] theorem State.setView_chPath (s : State) (i : Byte) (v : View) : (s.setView i v).chPath = s.chPath := rfl
@[simp] theorem State.setView_data (s : State) (i : Byte) (v : View) : (s.setView i v).data = s.data := rfl
@[simp] theorem State.setView_mlen (s : State) (i : Byte) (v : View) : (s.setView i v).mlen = s.mlen := rfl
@[simp] theorem State.setView_abs (s : State) (i : Byte) (v : View) : (s.setView i v).abs = s.abs := rfl
@[simp] theorem State.setView_views (s : State) (i : Byte) (v : View) :
    (s.setView i v).views = s.views.set i.toNat v := rfl
@[simp] theorem State.setView_phase (s : State) (i : Byte) (v : View) : (s.setView i v).phase = s.phase := rfl
@[simp] theorem State.setView_requests (s : State) (i : Byte) (v : View) :
    (s.setView i v).requests = s.requests := rfl
@[simp] theorem State.setView_responses (s : State) (i : Byte) (v : View) :
    (s.setView i v).responses = s.responses := rfl
@[simp] theorem State.setView_trace (s : State) (i : Byte) (v : View) : (s.setView i v).trace = s.trace := rfl
@[simp] theorem State.setView_openAnswers (s : State) (i : Byte) (v : View) :
    (s.setView i v).openAnswers = s.openAnswers := rfl
@[simp] theorem State.setView_cmdAnswers (s : State) (i : Byte) (v : View) :
    (s.setView i v).cmdAnswers = s.cmdAnswers := rfl

/-! #### `State.invalidateViews` -/

@[simp] theorem State.invalidateViews_cfg (s : State) : s.invalidateViews.cfg = s.cfg := rfl
@[simp] theorem State.invalidateViews_chOpen (s : State) : s.invalidateViews.chOpen = s.chOpen := rfl
@[simp] theorem State.invalidateViews_chPath (s : State) : s.invalidateViews.chPath = s.chPath := rfl
@[simp] theorem State.invalidateViews_data (s : State) : s.invalidateViews.data = s.data := rfl
@[simp] theorem State.invalidateViews_mlen (s : State) : s.invalidateViews.mlen = s.mlen := rfl
@[simp] theorem State.invalidateViews_abs (s : State) : s.invalidateViews.abs = s.abs := rfl
@[simp] theorem State.invalidateViews_views (s : State) :
    s.invalidateViews.views = s.views.map fun v => { v with valid := false } := rfl
@[simp] theorem State.invalidateViews_phase (s : State) : s.invalidateViews.phase = s.phase := rfl
@[simp] theorem State.invalidateViews_requests (s : State) : s.invalidateViews.requests = s.requests := rfl
@[simp] theorem State.invalidateViews_responses (s : State) : s.invalidateViews.responses = s.responses := rfl
@[simp] theorem State.invalidateViews_trace (s : State) : s.invalidateViews.trace = s.trace := rfl
@[simp] theorem State.invalidateViews_openAnswers (s : State) : s.invalidateViews.openAnswers = s.openAnswers := rfl
@[simp] theorem State.invalidateViews_cmdAnswers (s : State) : s.invalidateViews.cmdAnswers = s.cmdAnswers := rfl

/-! #### `State.sendOpen` -/

@[simp] theorem State.sendOpen_cfg (s : State) (p : Path) : (s.sendOpen p).cfg = s.cfg := rfl
@[simp] theorem State.sendOpen_chOpen (s : State) (p : Path) : (s.sendOpen p).chOpen = s.chOpen := rfl
@[simp] theorem State.sendOpen_chPath (s : State) (p : Path) : (s.sendOpen p).chPath = s.chPath := rfl
@[simp] theorem State.sendOpen_data (s : State) (p : Path) : (s.sendOpen p).data = s.data := rfl
@[simp] theorem State.sendOpen_mlen (s : State) (p : Path) : (s.sendOpen p).mlen = s.mlen := rfl
@[simp] theorem State.sendOpen_abs (s : State) (p : Path) : (s.sendOpen p).abs = s.abs := rfl
@[simp] theorem State.sendOpen_views (s : State) (p : Path) : (s.sendOpen p).views = s.views := rfl
@[simp] theorem State.sendOpen_phase (s : State) (p : Path) : (s.sendOpen p).phase = .run (.opening p) := rfl
@[simp] theorem State.sendOpen_requests (s : State) (p : Path) : (s.sendOpen p).requests = s.requests := rfl
@[simp] theorem State.sendOpen_responses (s : State) (p : Path) : (s.sendOpen p).responses = s.responses := rfl
@[simp] theorem State.sendOpen_trace (s : State) (p : Path) : (s.sendOpen p).trace = s.trace ++ [.devOpen p] := rfl
@[simp] theorem State.sendOpen_openAnswers (s : State) (p : Path) : (s.sendOpen p).openAnswers = s.openAnswers := rfl
@[simp] theorem State.sendOpen_cmdAnswers (s : State) (p : Path) : (s.sendOpen p).cmdAnswers = s.cmdAnswers := rfl

/-! #### `State.sendClose` -/

@[simp] theorem State.sendClose_cfg (s : State) : s.sendClose.cfg = s.cfg := rfl
@[simp] theorem State.sendClose_chOpen (s : State) : s.sendClose.chOpen = s.chOpen := rfl
@[simp] theorem State.sendClose_chPath (s : State) : s.sendClose.chPath = s.chPath := rfl
@[simp] theorem State.sendClose_data (s : State) : s.sendClose.data = s.data := rfl
@[simp] theorem State.sendClose_mlen (s : State) : s.sendClose.mlen = s.mlen := rfl
@[simp] theorem State.sendClose_abs (s : State) : s.sendClose.abs = s.abs := rfl
@[simp] theorem State.sendClose_views (s : State) : s.sendClose.views = s.views := rfl
@[simp] theorem State.sendClose_phase (s : State) : s.sendClose.phase = s.phase := rfl
@[simp] theorem State.sendClose_requests (s : State) : s.sendClose.requests = s.requests := rfl
@[simp] theorem State.sendClose_responses (s : State) : s.sendClose.responses = s.responses := rfl
@[simp] theorem State.sendClose_trace (s : State) : s.sendClose.trace = s.trace ++ [.devClose s.chPath] := rfl
@[simp] theorem State.sendClose_openAnswers (s : State) : s.sendClose.openAnswers = s.openAnswers := rfl
@[simp] theorem State.sendClose_cmdAnswers (s : State) : s.sendClose.cmdAnswers = s.cmdAnswers := rfl

/-! #### `State.sendCommand` -/

@[simp] theorem State.sendCommand_cfg (s : State) (cdb : List Byte) (x : Nat) (k : Continuation) :
    (s.sendCommand cdb x k).cfg = s.cfg := rfl
@[simp] theorem State.sendCommand_chOpen (s : State) (cdb : List Byte) (x : Nat) (k : Continuation) :
    (s.sendCommand cdb x k).chOpen = s.chOpen := rfl
@[simp] theorem State.sendCommand_chPath (s : State) (cdb : List Byte) (x : Nat) (k : Continuation) :
    (s.sendCommand cdb x k).chPath = s.chPath := rfl
@[simp] theorem State.sendCommand_data (s : State) (cdb : List Byte) (x : Nat) (k : Continuation) :
    (s.sendCommand cdb x k).data = s.data := rfl
@[simp] theorem State.sendCommand_mlen (s : State) (cdb : List Byte) (x : Nat) (k : Continuation) :
    (s.sendCommand cdb x k).mlen = s.mlen := rfl
@[simp] theorem State.sendCommand_abs (s : State) (cdb : List Byte) (x : Nat) (k : Continuation) :
    (s.sendCommand cdb x k).abs = s.abs := rfl
@[simp] theorem State.sendCommand_views (s : State) (cdb : List Byte) (x : Nat) (k : Continuation) :
    (s.sendCommand cdb x k).views = s.views := rfl
@[simp] theorem State.sendCommand_phase (s : State) (cdb : List Byte) (x : Nat) (k : Continuation) :
    (s.sendCommand cdb x k).phase = .run (.reading cdb k) := rfl
@[simp] theorem State.sendCommand_requests (s : State) (cdb : List Byte) (x : Nat) (k : Continuation) :
    (s.sendCommand cdb x k).requests = s.requests := rfl
@[simp] theorem State.sendCommand_responses (s : State) (cdb : List Byte) (x : Nat) (k : Continuation) :
    (s.sendCommand cdb x k).responses = s.responses := rfl
@[simp] theorem State.sendCommand_trace (s : State) (cdb : List Byte) (x : Nat) (k : Continuation) :
    (s.sendCommand cdb x k).trace = s.trace ++ [.devCmd s.chPath cdb x] := rfl
@[simp] theorem State.sendCommand_openAnswers (s : State) (cdb : List Byte) (x : Nat) (k : Continuation) :
    (s.sendCommand cdb x k).openAnswers = s.openAnswers := rfl
@[simp] theorem State.sendCommand_cmdAnswers (s : State) (cdb : List Byte) (x : Nat) (k : Continuation) :
    (s.sendCommand cdb x k).cmdAnswers = s.cmdAnswers := rfl

/-! #### `State.sendExtension` -/

@[simp] theorem State.sendExtension_cfg (s : State) (e : Extension) : (s.sendExtension e).cfg = s.cfg := rfl
@[simp] theorem State.sendExtension_chOpen (s : State) (e : Extension) : (s.sendExtension e).chOpen = s.chOpen := rfl
@[simp] theorem State.sendExtension_chPath (s : State) (e : Extension) : (s.sendExtension e).chPath = s.chPath := rfl
@[simp] theorem State.sendExtension_data (s : State) (e : Extension) : (s.sendExtension e).data = s.data := rfl
@[simp] theorem State.sendExtension_mlen (s : State) (e : Extension) : (s.sendExtension e).mlen = s.mlen := rfl
@[simp] theorem State.sendExtension_abs (s : State) (e : Extension) : (s.sendExtension e).abs = s.abs := rfl
@[simp] theorem State.sendExtension_views (s : State) (e : Extension) : (s.sendExtension e).views = s.views := rfl
@[simp] theorem State.sendExtension_phase (s : State) (e : Extension) :
    (s.sendExtension e).phase = .run (.reading (e.cdb s.cfg) (.extension e)) := rfl
@[simp] theorem State.sendExtension_requests (s : State) (e : Extension) :
    (s.sendExtension e).requests = s.requests := rfl
@[simp] theorem State.sendExtension_responses (s : State) (e : Extension) :
    (s.sendExtension e).responses = s.responses := rfl
@[simp] theorem State.sendExtension_trace (s : State) (e : Extension) :
    (s.sendExtension e).trace = s.trace ++ [.devCmd s.chPath (e.cdb s.cfg) (1 * s.cfg.bs)] := rfl
@[simp] theorem State.sendExtension_openAnswers (s : State) (e : Extension) :
    (s.sendExtension e).openAnswers = s.openAnswers := rfl
@[simp] theorem State.sendExtension_cmdAnswers (s : State) (e : Extension) :
    (s.sendExtension e).cmdAnswers = s.cmdAnswers := rfl

/-! #### `Extension.take` -/

@[simp] theorem Extension.take_form (e : Extension) (b : List Byte) : (e.take b).form = e.form := rfl
@[simp] theorem Extension.take_start (e : Extension) (b : List Byte) : (e.take b).start = e.start := rfl
@[simp] theorem Extension.take_len (e : Extension) (b : List Byte) : (e.take b).len = e.len := rfl
@[simp] theorem Extension.take_n (e : Extension) (b : List Byte) : (e.take b).n = e.n := rfl
@[simp] theorem Extension.take_base (e : Extension) (b : List Byte) : (e.take b).base = e.base := rfl
@[simp] theorem Extension.take_i (e : Extension) (b : List Byte) : (e.take b).i = e.i + 1 := rfl
@[simp] theorem Extension.take_stage (e : Extension) (b : List Byte) : (e.take b).stage = e.stage ++ b := rfl

/-! #### Views and operands read the state's fields only -/

/-- Writing one slot leaves every other slot as it reads. -/
theorem State.view_setView_ne (s : State) (i j : Byte) (v : View) (h : j ≠ i) : (s.setView i v).view j = s.view j := by
  have hne : i.toNat ≠ j.toNat := fun e => h (BitVec.eq_of_toNat_eq e.symm)
  simp [State.view, State.setView, List.getD_eq_getElem?_getD, List.getElem?_set_ne hne]

/-- A written slot reads as written, where the table has it. -/
theorem State.view_setView_self (s : State) (i : Byte) (v : View) (h : i.toNat < s.views.length) :
    (s.setView i v).view i = v := by
  simp [State.view, State.setView, List.getD_eq_getElem?_getD, h]

/-- The two spellings of the end of an operation agree: the machine's and the statements'. -/
theorem State.respond_eq_after (s : State) (r : Response) : s.respond r = s.after r := rfl

theorem State.raise_eq_after (s : State) (st : Status) : s.raise st = s.after (failure st) := rfl

theorem State.succeed_eq_after (s : State) (p : List Byte) : s.succeed p = s.after (success p) := rfl

end Sys2Proof.Machine
end

