-- ==== Sys2Proof/Laws/Memory.lean ====
section
/-! SUPPORT. The arena: every operation keeps its canonical form, appending leaves what was there, and a read of present
indices gives the slice. -/

namespace Sys2Proof.Machine

@[simp] theorem cellsAt_length (a : Nat) (bytes : List Byte) : (cellsAt a bytes).length = bytes.length := by
  induction bytes generalizing a with
  | nil => rfl
  | cons b rest ih => simp [cellsAt, ih]

theorem cellsAt_keys (a : Nat) (bytes : List Byte) :
    (cellsAt a bytes).map (·.1) = (List.range bytes.length).map (a + ·) := by
  induction bytes generalizing a with
  | nil => rfl
  | cons b rest ih =>
    simp only [cellsAt, List.map_cons, ih, List.length_cons, List.range_succ_eq_map, List.map_map]
    simp [Function.comp_def, Nat.add_comm, Nat.add_left_comm]

@[simp] theorem cellsAt_values (a : Nat) (bytes : List Byte) : (cellsAt a bytes).map (·.2) = bytes := by
  induction bytes generalizing a with
  | nil => rfl
  | cons b rest ih => simp [cellsAt, ih]

theorem cellsAt_append (a : Nat) (x y : List Byte) :
    cellsAt a (x ++ y) = cellsAt a x ++ cellsAt (a + x.length) y := by
  induction x generalizing a with
  | nil => simp [cellsAt]
  | cons b rest ih =>
    have : a + 1 + rest.length = a + (1 + rest.length) := by omega
    simp [cellsAt, ih, Nat.add_comm, this]

/-- The canonical form says which index each cell has. -/
theorem Memory.wf_iff (m : Memory) : m.wf = true ↔ m.map (·.1) = List.range m.length := by
  simp [Memory.wf]

/-- The canonical form has its addresses strictly rising. -/
theorem Memory.wf_rising (m : Memory) (h : m.wf = true) : (m.map (·.1)).Pairwise (· < ·) := by
  rw [(Memory.wf_iff m).1 h]
  exact List.pairwise_lt_range

/-- The empty arena is canonical. -/
theorem Memory.wf_nil : Memory.wf [] = true := by decide

@[simp] theorem Memory.append_length (m : Memory) (bytes : List Byte) :
    (m.append bytes).length = m.length + bytes.length := by
  simp [Memory.append]

/-- Appending keeps the canonical form. -/
theorem Memory.append_wf (m : Memory) (bytes : List Byte) (h : m.wf = true) : (m.append bytes).wf = true := by
  rw [Memory.wf_iff] at h ⊢
  simp [Memory.append, cellsAt_keys, h, List.range_add]

/-- Appending twice is appending once. -/
theorem Memory.append_append (m : Memory) (x y : List Byte) : (m.append x).append y = m.append (x ++ y) := by
  simp [Memory.append, cellsAt_append, List.append_assoc]

@[simp] theorem Memory.append_nil (m : Memory) : m.append [] = m := by simp [Memory.append, cellsAt]

theorem Memory.append_values (m : Memory) (bytes : List Byte) :
    (m.append bytes).map (·.2) = m.map (·.2) ++ bytes := by
  simp [Memory.append]

/-- In the canonical form, looking an index up is looking at that place of the list. -/
theorem Memory.read_eq_getElem (m : Memory) (h : m.wf = true) (a : Nat) : m.read a = (m.map (·.2))[a]? := by
  rw [Memory.wf_iff] at h
  have hk (j : Nat) (hj : j < m.length) : (m[j]).1 = j := by
    have := congrArg (fun l => l[j]?) h
    simpa [hj] using this
  unfold Memory.read
  by_cases ha : a < m.length
  · have hf : m.find? (fun c => c.1 == a) = some m[a] := by
      rw [List.find?_eq_some_iff_getElem]
      refine ⟨by simp [hk a ha], a, ha, rfl, ?_⟩
      intro j hj
      have := hk j (by omega)
      simp [this]; omega
    simp [hf, ha]
  · have hf : m.find? (fun c => c.1 == a) = none := by
      rw [List.find?_eq_none]
      intro c hc
      obtain ⟨j, hj, rfl⟩ := List.getElem_of_mem hc
      have := hk j hj
      simp [this]; omega
    simp [hf, ha, Memory.unlisted]

/-- `MemRead(a, n)` gives `data[a : a + n]` when the indices are present (00_scope R24). -/
theorem Memory.readBytes_eq_slice (m : Memory) (h : m.wf = true) (a n : Nat) (hn : a + n ≤ m.length) :
    m.readBytes a n = some (((m.map (·.2)).drop a).take n) := by
  induction n generalizing a with
  | zero => simp [Memory.readBytes]
  | succ n ih =>
    have ha : a < m.length := by omega
    simp only [Memory.readBytes, Memory.read_eq_getElem m h, ih (a + 1) (by omega)]
    rw [List.drop_eq_getElem_cons (i := a) (by simpa using ha)]
    simp [ha]

/-- `MemRead(a, n)` is not defined when an index is missing (00_scope R24). -/
theorem Memory.readBytes_eq_none (m : Memory) (h : m.wf = true) (a n : Nat) (hn : m.length < a + n) (hp : 0 < n) :
    m.readBytes a n = none := by
  induction n generalizing a with
  | zero => omega
  | succ n ih =>
    simp only [Memory.readBytes, Memory.read_eq_getElem m h]
    by_cases ha : a < m.length
    · have := ih (a + 1) (by omega) (by omega)
      simp [ha, this]
    · simp [ha]

/-- A byte that was there reads the same after an append. -/
theorem Memory.read_append_old (m : Memory) (bytes : List Byte) (h : m.wf = true) (a : Nat) (ha : a < m.length) :
    (m.append bytes).read a = m.read a := by
  rw [Memory.read_eq_getElem _ (Memory.append_wf m bytes h), Memory.read_eq_getElem m h, Memory.append_values,
    List.getElem?_append_left (by simpa using ha)]

/-- The appended bytes stand at the indices that follow. -/
theorem Memory.read_append_new (m : Memory) (bytes : List Byte) (h : m.wf = true) (k : Nat) :
    (m.append bytes).read (m.length + k) = bytes[k]? := by
  rw [Memory.read_eq_getElem _ (Memory.append_wf m bytes h), Memory.append_values]
  simp [List.getElem?_append]

end Sys2Proof.Machine
end

