-- ==== Sys2Proof/Laws/Operands.lean ====
section
/-! SUPPORT. The operand checks and the codecs in the words of the spec, and what the step fetches. -/

namespace Sys2Proof.Machine

/-- The command's range check is the one of 40_command_encoder R122. -/
theorem commandInRange_iff (lba count : Offset) :
    commandInRange lba count = true ↔ lba.toNat ≤ maxLba ∧ count.toNat ≤ maxCount := by
  simp [commandInRange]

theorem commandInRange_false_iff (lba count : Offset) :
    commandInRange lba count = false ↔ maxLba < lba.toNat ∨ maxCount < count.toNat := by
  rw [← Bool.not_eq_true, commandInRange_iff]
  omega

/-- A view index is in range below `NVIEWS` (30_encoding R102). -/
theorem State.viewInRange_iff (s : State) (v : Byte) : s.viewInRange v = true ↔ v.toNat < s.cfg.nviews := by
  simp [State.viewInRange, viewIndexOk]

theorem State.viewInRange_false_iff (s : State) (v : Byte) : s.viewInRange v = false ↔ s.cfg.nviews ≤ v.toNat := by
  simp [State.viewInRange, viewIndexOk]

/-- The view an index names is the slot of the table. -/
theorem State.view_of_slot (s : State) (v : Byte) (x : View) (h : s.views[v.toNat]? = some x) : s.view v = x := by
  simp [State.view, List.getD_eq_getElem?_getD, h]

/-- Extension is needed exactly when the read goes past the arena (42_block_buffer R185). -/
theorem needsExtension_iff (mlen stop : Nat) : needsExtension mlen stop = true ↔ mlen < stop := by
  simp [needsExtension]

/-- The limit is met when `ARENA_CAP` and 64 bits are (42_block_buffer R186). -/
theorem le_arenaLimit_iff (c : Config) (n : Nat) :
    n ≤ arenaLimit c ↔ n ≤ maxOffset ∧ ∀ cap, c.arenaCap = some cap → n ≤ cap := by
  unfold arenaLimit
  cases c.arenaCap with
  | none => simp
  | some cap => simp; omega

/-- Reading a command by its layout gives back what was encoded (30_encoding R93). -/
theorem decodeCommand_encodeCommand (opc : Byte) (lba : Lba) (count : Count) (flag : Byte) :
    decodeCommand opc (encodeCommand opc lba count flag) = .ok (.read10 flag lba count) := by
  simp only [decodeCommand, encodeCommand, lba_bytes, count_bytes]
  simp

/-- What the step fetches when a command stands on the device port. -/
theorem State.fetch_command (s : State) (lba : Lba) (count : Count) (flag : Byte) (k : Continuation)
    (h : s.phase = .run (.reading (encodeCommand s.cfg.opc lba count flag) k)) :
    s.fetch = .runs (.read10 flag lba count) s := by
  simp only [State.fetch, h, State.fetchCommand, decode, decodeCommand_encodeCommand]

/-- READ10 on the command an RDBLK waits for is the answer to that RDBLK. -/
theorem exec_read10_blocks (s : State) (lba : Lba) (count : Count) (flag : Byte)
    (h : s.phase = .run (.reading (encodeCommand s.cfg.opc lba count flag) .blocks)) :
    exec (.read10 flag lba count) s = .next (s.awaitBlocks count.toNat) := by
  simp only [exec, execRead10, h, if_true]

/-- READ10 on the command an extension waits for takes the extension on. -/
theorem exec_read10_extension (s : State) (lba : Lba) (count : Count) (flag : Byte) (e : Extension)
    (h : s.phase = .run (.reading (encodeCommand s.cfg.opc lba count flag) (.extension e))) :
    exec (.read10 flag lba count) s = State.awaitExtension s.cmdAnswers e s := by
  simp only [exec, execRead10, h, if_true]

end Sys2Proof.Machine
end

