-- ==== Sys2Proof/Laws/Ops.lean ====
section
/-! SUPPORT. What each shared operation can do, said once: the answer of each device primitive, the end of a read, the
extension loop from an outstanding command on, and a whole read. -/

namespace Sys2Proof.Machine

/-! ### Answers -/

/-- Acceptance, in the words of 41_device_channel R154. -/
theorem CmdAnswer.accepted_iff (a : CmdAnswer) (x : Nat) :
    a.accepted x = true ↔ a.ok = true ∧ a.bytes.length = x := by
  simp [CmdAnswer.accepted]

theorem CmdAnswer.accepted_block_iff (a : CmdAnswer) (bs : Nat) : a.accepted (1 * bs) = true ↔ a.isBlock bs := by
  simp [CmdAnswer.accepted, CmdAnswer.isBlock]

/-- The answer to an outstanding `DevOpen`: none yet, or one of the four ends of OPEN. -/
theorem awaitOpen_cases (s : State) (path : Path) :
    (s.openAnswers = [] ∧ s.awaitOpen path = s) ∨
    ∃ answer rest, s.openAnswers = answer :: rest ∧
      s.awaitOpen path = (match answer with
        | .granted => { s with openAnswers := rest, chOpen := true, chPath := path }.succeed []
        | .accessDenied => { s with openAnswers := rest }.raise .permissionDenied
        | .notFound => { s with openAnswers := rest }.raise .notFound
        | .otherFailure => { s with openAnswers := rest }.raise .openFailed) := by
  unfold State.awaitOpen
  cases h : s.openAnswers with
  | nil => exact .inl ⟨rfl, rfl⟩
  | cons answer rest => exact .inr ⟨answer, rest, rfl, by cases answer <;> rfl⟩

/-- The answer to the outstanding command of an RDBLK: none yet, accepted, or rejected. -/
theorem awaitBlocks_cases (s : State) (count : Nat) :
    (s.cmdAnswers = [] ∧ s.awaitBlocks count = s) ∨
    ∃ answer rest, s.cmdAnswers = answer :: rest ∧
      ((answer.accepted (count * s.cfg.bs) = true ∧
          s.awaitBlocks count = { s with cmdAnswers := rest }.succeed answer.bytes) ∨
        (answer.accepted (count * s.cfg.bs) = false ∧
          s.awaitBlocks count = { s with cmdAnswers := rest }.raise .ioError)) := by
  unfold State.awaitBlocks
  cases h : s.cmdAnswers with
  | nil => exact .inl ⟨rfl, rfl⟩
  | cons answer rest =>
    refine .inr ⟨answer, rest, rfl, ?_⟩
    cases ha : answer.accepted (count * s.cfg.bs) with
    | true => exact .inl ⟨rfl, by simp [ha]⟩
    | false => exact .inr ⟨rfl, by simp [ha]⟩

/-! ### The end of a read -/

/-- A read whose bytes are present answers their slice. -/
theorem finishRead_present (s : State) (form : ReadForm) (start len : Nat) (hwf : s.data.wf = true)
    (h : start + len ≤ s.data.length) :
    s.finishRead form start len = .next (s.respond (form.response s.cfg.recordOrder (s.slice start len))) := by
  simp [State.finishRead, Memory.readBytes_eq_slice s.data hwf start len h, State.slice]

/-- The end of a read answers once, from bytes of the arena, and changes nothing else. -/
theorem finishRead_next (s t : State) (form : ReadForm) (start len : Nat) (h : s.finishRead form start len = .next t) :
    ∃ bytes, s.data.readBytes start len = some bytes ∧ t = s.respond (form.response s.cfg.recordOrder bytes) := by
  unfold State.finishRead at h
  split at h
  · next bytes hb => exact ⟨bytes, hb, by simpa using h.symm⟩
  · cases h

@[simp] theorem ReadForm.response_status (f : ReadForm) (o : RecordOrder) (s : List Byte) :
    (f.response o s).status = .ok := by
  cases f <;> rfl

/-! ### The extension loop -/

/-- The extension after `k` more accepted blocks. -/
def Extension.takeAll (e : Extension) (answers : List CmdAnswer) : Extension :=
  { e with i := e.i + answers.length, stage := e.stage ++ stagedBytes answers }

/-- The state after the loop has taken `answers`, all blocks and not the last: the next command stands on the port. -/
def State.extended (s : State) (e : Extension) (answers rest : List CmdAnswer) : State :=
  { s with
    trace := s.trace ++ (List.range answers.length).map fun j =>
      .devCmd s.chPath (encodeCommand s.cfg.opc (BitVec.ofNat 32 (e.base + (e.i + 1 + j))) 1 s.cfg.extFlag) s.cfg.bs
    cmdAnswers := rest
    phase := .run (.reading ((e.takeAll answers).cdb s.cfg) (.extension (e.takeAll answers))) }

theorem awaitExtension_nil (e : Extension) (s : State) : State.awaitExtension [] e s = .next s := rfl

theorem awaitExtension_reject (a : CmdAnswer) (rest : List CmdAnswer) (e : Extension) (s : State)
    (h : ¬ a.isBlock s.cfg.bs) :
    State.awaitExtension (a :: rest) e s = .next ({ s with cmdAnswers := rest }.raise .ioError) := by
  rw [← CmdAnswer.accepted_block_iff] at h
  simp only [State.awaitExtension]
  rw [if_neg h]

theorem awaitExtension_more (a : CmdAnswer) (rest : List CmdAnswer) (e : Extension) (s : State)
    (h : a.isBlock s.cfg.bs) (hn : e.i + 1 < e.n) :
    State.awaitExtension (a :: rest) e s =
      State.awaitExtension rest (e.take a.bytes) ({ s with cmdAnswers := rest }.sendExtension (e.take a.bytes)) := by
  rw [← CmdAnswer.accepted_block_iff] at h
  simp only [State.awaitExtension]
  rw [if_pos h, if_pos (by simpa using hn)]

theorem awaitExtension_commit (a : CmdAnswer) (rest : List CmdAnswer) (e : Extension) (s : State)
    (h : a.isBlock s.cfg.bs) (hn : ¬ e.i + 1 < e.n) :
    State.awaitExtension (a :: rest) e s =
      ({ s with cmdAnswers := rest }.arenaAppend (e.stage ++ a.bytes)).finishRead e.form e.start e.len := by
  rw [← CmdAnswer.accepted_block_iff] at h
  simp only [State.awaitExtension]
  rw [if_pos h, if_neg (by simpa using hn)]
  rfl

theorem stagedBytes_cons (a : CmdAnswer) (l : List CmdAnswer) : stagedBytes (a :: l) = a.bytes ++ stagedBytes l := rfl

/-- Whole blocks: the staged bytes of `k` accepted answers. -/
theorem stagedBytes_length (answers : List CmdAnswer) (bs : Nat) (h : ∀ a ∈ answers, a.isBlock bs) :
    (stagedBytes answers).length = answers.length * bs := by
  induction answers with
  | nil => simp [stagedBytes]
  | cons a l ih =>
    have ha := (h a (by simp)).2
    have hl := ih fun x hx => h x (by simp [hx])
    simp [stagedBytes_cons, ha, hl, Nat.add_mul, Nat.add_comm]

/-- The loop over answers that are all blocks, short of the last: it goes on with the rest of the tape. -/
theorem awaitExtension_skip (answers rest : List CmdAnswer) (e : Extension) (s : State)
    (hcmd : s.cmdAnswers = answers ++ rest) (hphase : s.phase = .run (.reading (e.cdb s.cfg) (.extension e)))
    (hb : ∀ a ∈ answers, a.isBlock s.cfg.bs) (hn : e.i + answers.length < e.n) :
    State.awaitExtension (answers ++ rest) e s =
      State.awaitExtension rest (e.takeAll answers) (s.extended e answers rest) := by
  induction answers generalizing e s with
  | nil =>
    have he : e.takeAll [] = e := by simp [Extension.takeAll, stagedBytes]
    have hs : s.extended e [] rest = s := by
      cases s
      simp only [List.nil_append] at hcmd hphase
      simp [State.extended, he, hcmd, hphase]
    simp [he, hs]
  | cons a l ih =>
    have ha := hb a (by simp)
    simp only [List.length_cons] at hn
    rw [List.cons_append, awaitExtension_more a (l ++ rest) e s ha (by omega)]
    refine (ih (e.take a.bytes) (State.sendExtension { s with cmdAnswers := l ++ rest } (e.take a.bytes)) rfl rfl
      (fun x hx => hb x (by simp [hx])) (by simp; omega)).trans ?_
    have he : (e.take a.bytes).takeAll l = e.takeAll (a :: l) := by
      have hi : e.i + 1 + l.length = e.i + (l.length + 1) := by omega
      simp [Extension.takeAll, Extension.take, stagedBytes_cons, hi]
    rw [he]
    congr 1
    have h0 : (e.take a.bytes).cdb s.cfg =
        encodeCommand s.cfg.opc (BitVec.ofNat 32 (e.base + (e.i + 1))) 1 s.cfg.extFlag := rfl
    simp [State.extended, he, h0, List.range_succ_eq_map, Function.comp_def, Nat.add_comm, Nat.add_left_comm]

/-! ### Frames -/

/-- What no read, no command and no answer changes. -/
structure State.SameRest (s t : State) : Prop where
  cfg : t.cfg = s.cfg
  chOpen : t.chOpen = s.chOpen
  chPath : t.chPath = s.chPath
  abs : t.abs = s.abs
  views : t.views = s.views
  requests : t.requests = s.requests
  openAnswers : t.openAnswers = s.openAnswers

/-- The commands of an extension, as events. -/
def isExtensionCommand (s : State) (e : DevEvent) : Prop :=
  ∃ lba : Lba, e = .devCmd s.chPath (encodeCommand s.cfg.opc lba 1 s.cfg.extFlag) (1 * s.cfg.bs)

/-- The three ends of the extension loop: it waits, a rejected answer ended it, or it has committed and answered. -/
inductive ExtensionEnd (s t : State) (form : ReadForm) : Prop where
  | waits (data : t.data = s.data) (mlen : t.mlen = s.mlen) (responses : t.responses = s.responses)
      (phase : t.phase = s.phase ∨ ∃ e, t.phase = .run (.reading (Extension.cdb e s.cfg) (.extension e)))
  | failed (data : t.data = s.data) (mlen : t.mlen = s.mlen)
      (responses : t.responses = s.responses ++ [failure .ioError]) (phase : t.phase = .idle)
  | done (stage bytes : List Byte) (data : t.data = s.data.append stage)
      (mlen : t.mlen = BitVec.ofNat 64 (s.mlen.toNat + stage.length))
      (responses : t.responses = s.responses ++ [form.response s.cfg.recordOrder bytes]) (phase : t.phase = .idle)

/-- All that the extension loop can do (42_block_buffer R188 to R191). -/
theorem awaitExtension_next (tape : List CmdAnswer) (e : Extension) (s t : State)
    (h : State.awaitExtension tape e s = .next t) :
    s.SameRest t ∧ (∃ sent, t.trace = s.trace ++ sent ∧ ∀ x ∈ sent, isExtensionCommand s x) ∧
      ExtensionEnd s t e.form := by
  induction tape generalizing e s with
  | nil =>
    obtain rfl : s = t := by simpa [State.awaitExtension] using h
    exact ⟨⟨rfl, rfl, rfl, rfl, rfl, rfl, rfl⟩, ⟨[], by simp⟩, .waits rfl rfl rfl (.inl rfl)⟩
  | cons a rest ih =>
    by_cases ha : a.isBlock s.cfg.bs
    · by_cases hn : e.i + 1 < e.n
      · rw [awaitExtension_more a rest e s ha hn] at h
        obtain ⟨hr, ⟨sent, hsent, hall⟩, hend⟩ := ih _ _ h
        obtain ⟨h1, h2, h3, h4, h5, h6, h7⟩ := hr
        refine ⟨⟨h1, h2, h3, h4, h5, h6, h7⟩,
          ⟨.devCmd s.chPath ((e.take a.bytes).cdb s.cfg) (1 * s.cfg.bs) :: sent, by rw [hsent]; simp, ?_⟩, ?_⟩
        · intro x hx
          rcases List.mem_cons.1 hx with rfl | hx
          · exact ⟨_, rfl⟩
          · exact hall x hx
        · cases hend with
          | waits hd hm hrs hp =>
            refine .waits hd hm hrs (.inr ?_)
            rcases hp with hp | ⟨e', hp⟩
            · exact ⟨_, hp⟩
            · exact ⟨e', hp⟩
          | failed hd hm hrs hp => exact .failed hd hm hrs hp
          | done st b hd hm hrs hp => exact .done st b hd hm hrs hp
      · rw [awaitExtension_commit a rest e s ha hn] at h
        obtain ⟨bytes, -, rfl⟩ := finishRead_next _ _ _ _ _ h
        exact ⟨⟨rfl, rfl, rfl, rfl, rfl, rfl, rfl⟩, ⟨[], by simp⟩, .done _ bytes rfl rfl rfl rfl⟩
    · rw [awaitExtension_reject a rest e s ha] at h
      obtain rfl : _ = t := by simpa using h
      exact ⟨⟨rfl, rfl, rfl, rfl, rfl, rfl, rfl⟩, ⟨[], by simp⟩, .failed rfl rfl rfl rfl⟩

/-! ### A whole read -/

/-- The extension a read starts (42_block_buffer R183, R195). -/
def State.extensionFor (s : State) (form : ReadForm) (start len : Nat) : Extension :=
  { form := form, start := start, len := len
    n := extensionBlocks s.cfg.bs s.mlen.toNat (start + len)
    base := extensionBase s.cfg.bs s.abs.toNat s.mlen.toNat
    i := 0, stage := [] }

/-- All that a read can do: one of its refusals, the answer of present bytes, or an extension. -/
inductive ReadCase (s : State) (form : ReadForm) (vs : Byte) (offset length : Offset) : Result → Prop where
  | illegal (h : s.viewInRange vs = false) : ReadCase s form vs offset length (.next (s.raise .illegalRequest))
  | noView (hi : s.viewInRange vs = true) (h : (s.view vs).valid = false) :
      ReadCase s form vs offset length (.next (s.raise .noView))
  | bounds (hi : s.viewInRange vs = true) (hv : (s.view vs).valid = true) :
      ReadCase s form vs offset length (.next (s.raise .boundsError))
  | closed (hi : s.viewInRange vs = true) (hv : (s.view vs).valid = true) (hc : s.chOpen = false) :
      ReadCase s form vs offset length (.next (s.raise .closed))
  | present (hi : s.viewInRange vs = true) (hv : (s.view vs).valid = true)
      (hs : (s.view vs).rel.toNat + offset.toNat + length.toNat ≤ maxOffset)
      (hm : (s.view vs).rel.toNat + offset.toNat + length.toNat ≤ s.mlen.toNat) :
      ReadCase s form vs offset length
        (s.finishRead form ((s.view vs).rel.toNat + offset.toNat) length.toNat)
  | extends_ (e : Extension) (hi : s.viewInRange vs = true) (hv : (s.view vs).valid = true)
      (he : e = s.extensionFor form ((s.view vs).rel.toNat + offset.toNat) length.toNat)
      (hs : e.start + e.len ≤ maxOffset) (hm : s.mlen.toNat < e.start + e.len)
      (hroom : s.mlen.toNat + e.n * s.cfg.bs ≤ arenaLimit s.cfg) (hlba : e.base + e.n - 1 ≤ maxLba)
      (ho : s.chOpen = true) :
      ReadCase s form vs offset length (State.awaitExtension s.cmdAnswers e (s.sendExtension e))

/-- A read does one of these. -/
theorem read_cases (s : State) (form : ReadForm) (vs : Byte) (offset length : Offset) :
    ReadCase s form vs offset length (s.read form vs offset length) := by
  unfold State.read
  split
  · next h => exact .illegal (by simpa using h)
  next hi =>
  have hi : s.viewInRange vs = true := by simpa using hi
  split
  · next h => exact .noView hi (by simpa using h)
  next hv =>
  have hv : (s.view vs).valid = true := by simpa using hv
  simp only []
  split
  · exact .bounds hi hv
  next hs =>
  split
  · next hm =>
    split
    · exact .bounds hi hv
    next hroom =>
    split
    · exact .bounds hi hv
    next hlba =>
    split
    · next hc => exact .closed hi hv (by simpa using hc)
    next ho =>
    refine .extends_ (s.extensionFor form ((s.view vs).rel.toNat + offset.toNat) length.toNat) hi hv rfl ?_ ?_ ?_ ?_ ?_
    · simp only [State.extensionFor]; omega
    · simpa [needsExtension, State.extensionFor] using hm
    · simp only [State.extensionFor]; omega
    · simp only [State.extensionFor]; omega
    · simpa using ho
  · next hm => exact .present hi hv (by omega) (by simpa [needsExtension] using hm)

end Sys2Proof.Machine
end

