-- ==== Sys2Proof/Laws/PerInstr.lean ====
section
/-! SUPPORT. One family of statements per instruction: the encoding of every operation lies in its row of
spec/opcode_table.json, under the row's mask, and an operation of an HREQ row is never encoded as a command. -/

namespace Sys2Proof

/-- The fixed byte of each row of spec/opcode_table.json: `op` for an HREQ row (30_encoding R100), `none` for CDB10,
whose byte 0 is `OPC` (30_encoding R91, R108). -/
def rowOp : Instr → Option Byte
  | .enc _ _ _ => some 0x01
  | .openDev _ => some 0x02
  | .closeDev => some 0x03
  | .rdblk _ _ _ => some 0x04
  | .binit _ _ _ => some 0x08
  | .derive _ _ _ => some 0x09
  | .adv _ _ => some 0x0A
  | .rdb _ _ _ => some 0x0B
  | .u8 _ _ => some 0x10
  | .i8 _ _ => some 0x11
  | .u16 _ _ => some 0x12
  | .i16 _ _ => some 0x13
  | .u32 _ _ => some 0x14
  | .i32 _ _ => some 0x15
  | .txt _ _ _ => some 0x18
  | .read10 _ _ _ => none

/-- The word lies in the row: the masked bits are the row's `match`. -/
def InstrWord.inRow (opc : Byte) : Option Byte → InstrWord → Prop
  | some op, .hreq w => (Hreq.unpack w).op = op
  | none, .cdb10 bytes => bytes.length = 10 ∧ bytes[0]? = some opc ∧ bytes[9]? = some 0
  | some _, .cdb10 _ => False
  | none, .hreq _ => False

/-- A request built from fields carries its `op` where the table's mask looks for it. -/
theorem ofFields_inRow (opc op vd vs flag : Byte) (a b : Offset) :
    (Hreq.ofFields op vd vs flag a b).inRow opc (some op) := by
  simp only [Hreq.ofFields, InstrWord.inRow, Hreq.unpack_pack]

namespace Laws

/-- The encoding of `i` lies in its own row of the opcode table, for every `OPC`. -/
def TableRow.Statement (i : Instr) : Prop := ∀ opc : Byte, (encode opc i).inRow opc (rowOp i)

theorem TableRow.enc (lba count : Offset) (flag : Byte) : TableRow.Statement (.enc lba count flag) :=
  fun opc => ofFields_inRow opc 0x01 0 0 flag lba count

theorem TableRow.openDev (path : Path) : TableRow.Statement (.openDev path) :=
  fun opc => ofFields_inRow opc 0x02 0 0 0 path 0

theorem TableRow.closeDev : TableRow.Statement .closeDev := fun opc => ofFields_inRow opc 0x03 0 0 0 0 0

theorem TableRow.rdblk (lba count : Offset) (flag : Byte) : TableRow.Statement (.rdblk lba count flag) :=
  fun opc => ofFields_inRow opc 0x04 0 0 flag lba count

theorem TableRow.binit (vd : Byte) (anchor rel : Offset) : TableRow.Statement (.binit vd anchor rel) :=
  fun opc => ofFields_inRow opc 0x08 vd 0 0 anchor rel

theorem TableRow.derive (vd vs : Byte) (extra : Offset) : TableRow.Statement (.derive vd vs extra) :=
  fun opc => ofFields_inRow opc 0x09 vd vs 0 extra 0

theorem TableRow.adv (vd : Byte) (delta : Offset) : TableRow.Statement (.adv vd delta) :=
  fun opc => ofFields_inRow opc 0x0A vd 0 0 delta 0

theorem TableRow.rdb (vs : Byte) (offset length : Offset) : TableRow.Statement (.rdb vs offset length) :=
  fun opc => ofFields_inRow opc 0x0B 0 vs 0 offset length

theorem TableRow.u8 (vs : Byte) (offset : Offset) : TableRow.Statement (.u8 vs offset) :=
  fun opc => ofFields_inRow opc 0x10 0 vs 0 offset 0

theorem TableRow.i8 (vs : Byte) (offset : Offset) : TableRow.Statement (.i8 vs offset) :=
  fun opc => ofFields_inRow opc 0x11 0 vs 0 offset 0

theorem TableRow.u16 (vs : Byte) (offset : Offset) : TableRow.Statement (.u16 vs offset) :=
  fun opc => ofFields_inRow opc 0x12 0 vs 0 offset 0

theorem TableRow.i16 (vs : Byte) (offset : Offset) : TableRow.Statement (.i16 vs offset) :=
  fun opc => ofFields_inRow opc 0x13 0 vs 0 offset 0

theorem TableRow.u32 (vs : Byte) (offset : Offset) : TableRow.Statement (.u32 vs offset) :=
  fun opc => ofFields_inRow opc 0x14 0 vs 0 offset 0

theorem TableRow.i32 (vs : Byte) (offset : Offset) : TableRow.Statement (.i32 vs offset) :=
  fun opc => ofFields_inRow opc 0x15 0 vs 0 offset 0

theorem TableRow.txt (vs : Byte) (offset length : Offset) : TableRow.Statement (.txt vs offset length) :=
  fun opc => ofFields_inRow opc 0x18 0 vs 0 offset length

theorem TableRow.read10 (flag : Byte) (lba : Lba) (count : Count) : TableRow.Statement (.read10 flag lba count) :=
  fun _ => ⟨rfl, rfl, rfl⟩

end Laws

end Sys2Proof
end

