-- ==== Sys2Proof/Laws/Reads.lean ====
section
/-! SUPPORT. The eight operations that read, as the one read they share: the value of a field from its bytes, what a
read that passes its checks does, how an extension begins and commits, and all that a read can do. -/

namespace Sys2Proof.Machine

/-! ### Field values (43_field_accessors R211 to R217) -/

theorem recValue_one (o : RecordOrder) (b0 : Byte) : recValue o [b0] = b0.toNat := by
  cases o <;> simp [recValue, leValue, beValue]

theorem recValue_two (o : RecordOrder) (b0 b1 : Byte) : recValue o [b0, b1] = reading16 o b0 b1 := by
  cases o <;> simp [recValue, leValue, beValue, reading16]

theorem recValue_four (o : RecordOrder) (b0 b1 b2 b3 : Byte) :
    recValue o [b0, b1, b2, b3] = reading32 o b0 b1 b2 b3 := by
  cases o <;> simp [recValue, leValue, beValue, reading32] <;> omega

theorem reading16_lt (o : RecordOrder) (b0 b1 : Byte) : reading16 o b0 b1 < 2 ^ 16 := by
  have := b0.isLt
  have := b1.isLt
  cases o <;> simp only [reading16] <;> omega

theorem reading32_lt (o : RecordOrder) (b0 b1 b2 b3 : Byte) : reading32 o b0 b1 b2 b3 < 2 ^ 32 := by
  have := b0.isLt
  have := b1.isLt
  have := b2.isLt
  have := b3.isLt
  cases o <;> simp only [reading32] <;> omega

/-- Zero extension keeps the number. -/
theorem zeroExtended (n v : Nat) (h : v < 2 ^ n) : (BitVec.ofNat n v).setWidth 32 = BitVec.ofNat 32 v := by
  apply BitVec.eq_of_toNat_eq
  simp [Nat.mod_eq_of_lt h]

/-- Sign extension keeps the two's complement number (00_scope R20). -/
theorem signExtended (n v : Nat) (hn : 0 < n) (h : v < 2 ^ n) :
    (BitVec.ofNat n v).signExtend 32 = BitVec.ofInt 32 (twosComplement n v) := by
  unfold BitVec.signExtend
  congr 1
  rw [BitVec.toInt_eq_toNat_cond]
  simp only [BitVec.toNat_ofNat, Nat.mod_eq_of_lt h, twosComplement]
  have : 2 ^ n = 2 * 2 ^ (n - 1) := by rw [← Nat.pow_succ', Nat.succ_eq_add_one, Nat.sub_add_cancel hn]
  split <;> split <;> first | rfl | omega

theorem two_of_length {α : Type} (l : List α) (h : l.length = 2) : ∃ a b, l = [a, b] := List.length_eq_two.1 h

theorem four_of_length {α : Type} (l : List α) (h : l.length = 4) : ∃ a b c d, l = [a, b, c, d] := by
  match l, h with
  | [a, b, c, d], _ => exact ⟨a, b, c, d, rfl⟩

/-! ### The eight operations are one read -/

/-- Each of the eight is the shared read in its form, and its form's response is the answer the spec gives for the
bytes. -/
theorem exec_of_readOf (s : State) (i : Instr) (vs : Byte) (offset : Offset) (len : Nat)
    (h : readOf i = some (vs, offset, len)) :
    ∃ form length, length.toNat = len ∧ exec i s = s.read form vs offset length ∧
      ∀ o bytes, bytes.length = len → readAnswer o i bytes = some (form.response o bytes) := by
  cases i <;> simp [readOf] at h
  case rdb =>
    obtain ⟨rfl, rfl, rfl⟩ := h
    exact ⟨.bytes, _, rfl, rfl, fun _ _ _ => rfl⟩
  case txt =>
    obtain ⟨rfl, rfl, rfl⟩ := h
    exact ⟨.text, _, rfl, rfl, fun _ _ _ => rfl⟩
  case u8 =>
    obtain ⟨rfl, rfl, rfl⟩ := h
    refine ⟨.u8, _, rfl, rfl, fun o b hb => ?_⟩
    obtain ⟨b0, rfl⟩ := List.length_eq_one_iff.1 hb
    simp [readAnswer, ReadForm.response, unsignedField, recValue_one, successValue]
  case i8 =>
    obtain ⟨rfl, rfl, rfl⟩ := h
    refine ⟨.i8, _, rfl, rfl, fun o b hb => ?_⟩
    obtain ⟨b0, rfl⟩ := List.length_eq_one_iff.1 hb
    simp only [readAnswer, ReadForm.response, signedField, recValue_one, successValue,
      signExtended 8 _ (by omega) b0.isLt]
  case u16 =>
    obtain ⟨rfl, rfl, rfl⟩ := h
    refine ⟨.u16, _, rfl, rfl, fun o b hb => ?_⟩
    obtain ⟨b0, b1, rfl⟩ := two_of_length b hb
    simp only [readAnswer, ReadForm.response, unsignedField, recValue_two, successValue,
      zeroExtended 16 _ (reading16_lt _ _ _)]
  case i16 =>
    obtain ⟨rfl, rfl, rfl⟩ := h
    refine ⟨.i16, _, rfl, rfl, fun o b hb => ?_⟩
    obtain ⟨b0, b1, rfl⟩ := two_of_length b hb
    simp only [readAnswer, ReadForm.response, signedField, recValue_two, successValue,
      signExtended 16 _ (by omega) (reading16_lt _ _ _)]
  case u32 =>
    obtain ⟨rfl, rfl, rfl⟩ := h
    refine ⟨.u32, _, rfl, rfl, fun o b hb => ?_⟩
    obtain ⟨b0, b1, b2, b3, rfl⟩ := four_of_length b hb
    simp only [readAnswer, ReadForm.response, unsignedField, recValue_four, successValue,
      zeroExtended 32 _ (reading32_lt _ _ _ _ _)]
  case i32 =>
    obtain ⟨rfl, rfl, rfl⟩ := h
    refine ⟨.i32, _, rfl, rfl, fun o b hb => ?_⟩
    obtain ⟨b0, b1, b2, b3, rfl⟩ := four_of_length b hb
    simp only [readAnswer, ReadForm.response, signedField, recValue_four, successValue,
      signExtended 32 _ (by omega) (reading32_lt _ _ _ _ _)]

/-! ### A read that passes its checks -/

/-- What is left of a read once its index, its view and its arithmetic are good (42_block_buffer R184 to R187). -/
def State.checkedRead (s : State) (e : Extension) : Result :=
  if s.mlen.toNat < e.start + e.len then
    if arenaLimit s.cfg < s.mlen.toNat + e.n * s.cfg.bs then .next (s.raise .boundsError)
    else if maxLba < e.base + e.n - 1 then .next (s.raise .boundsError)
    else if s.chOpen = false then .next (s.raise .closed)
    else State.awaitExtension s.cmdAnswers e (s.sendExtension e)
  else s.finishRead e.form e.start e.len

theorem read_checked (s : State) (form : ReadForm) (vs : Byte) (offset length : Offset) (v : View)
    (hn : vs.toNat < s.cfg.nviews) (hv : s.views[vs.toNat]? = some v) (hval : v.valid = true)
    (hs : v.rel.toNat + offset.toNat + length.toNat ≤ maxOffset) :
    s.read form vs offset length =
      s.checkedRead (s.extensionFor form (v.rel.toNat + offset.toNat) length.toNat) := by
  have h1 := (s.viewInRange_iff vs).2 hn
  have h2 := s.view_of_slot vs v hv
  simp only [State.read, State.checkedRead, h1, h2, hval, Bool.not_true, Bool.false_eq_true, if_false,
    needsExtension_iff, gt_iff_lt, State.extensionFor, Nat.not_lt.2 hs]
  cases s.chOpen <;> simp

/-- Each of the eight, in a state where it passes its checks. -/
theorem exec_of_readsAt (s : State) (i : Instr) (start len : Nat) (h : s.readsAt i start len) :
    ∃ form, (∀ o bytes, bytes.length = len → readAnswer o i bytes = some (form.response o bytes)) ∧
      exec i s = s.checkedRead (s.extensionFor form start len) := by
  obtain ⟨vs, off, v, hr, hn, hv, hval, rfl, hs⟩ := h
  obtain ⟨form, length, rfl, he, ha⟩ := exec_of_readOf s i vs off len hr
  exact ⟨form, ha, he.trans (read_checked s form vs off length v hn hv hval hs)⟩

/-! ### An extension from its first command to its commit -/

/-- The extension a read starts, with its parameters spelled out. -/
def Extension.fresh (form : ReadForm) (start len n base : Nat) : Extension := ⟨form, start, len, n, base, 0, []⟩

/-- A read that needs blocks and may have them runs the extension loop on what the environment has answered. -/
theorem exec_extends (s : State) (i : Instr) (start len n base : Nat) (hra : s.readsAt i start len)
    (hl : s.lacks (start + len) n base) (hr : s.hasRoom n) (hb : base + n - 1 ≤ 2 ^ 32 - 1) (ho : s.chOpen = true) :
    ∃ form, (∀ o bytes, bytes.length = len → readAnswer o i bytes = some (form.response o bytes)) ∧
      exec i s = State.awaitExtension s.cmdAnswers (Extension.fresh form start len n base)
        (s.sendExtension (Extension.fresh form start len n base)) := by
  obtain ⟨form, ha, he⟩ := exec_of_readsAt s i start len hra
  refine ⟨form, ha, ?_⟩
  obtain ⟨h1, hn, hb'⟩ := hl
  have e : s.extensionFor form start len = Extension.fresh form start len n base := by rw [hn, hb']; rfl
  have hr' := le_arenaLimit_iff s.cfg (s.mlen.toNat + n * s.cfg.bs)
  rw [he, e]
  exact (if_pos h1).trans ((if_neg (Nat.not_lt.2 (hr'.2 hr))).trans
    ((if_neg (Nat.not_lt.2 hb)).trans (if_neg (by simp [ho]))))

theorem extensionCommands_succ (c : Config) (p : Path) (base k : Nat) :
    extensionCommands c p base (k + 1) = .devCmd p (encodeCommand c.opc (BitVec.ofNat 32 base) 1 c.extFlag) c.bs ::
      (List.range k).map fun j =>
        .devCmd p (encodeCommand c.opc (BitVec.ofNat 32 (base + (0 + 1 + j))) 1 c.extFlag) c.bs := by
  simp only [extensionCommands, List.range_succ_eq_map, List.map_cons, List.map_map, Nat.add_zero]
  congr 1
  apply List.map_congr_left
  intro j _
  simp [Nat.add_comm]

/-- After `answers` accepted blocks of a fresh extension: one more command is sent than answered, the blocks are staged,
and nothing else has changed. -/
theorem sendExtension_extended (s : State) (form : ReadForm) (start len n base : Nat)
    (answers rest : List CmdAnswer) :
    (s.sendExtension (Extension.fresh form start len n base)).extended (Extension.fresh form start len n base)
        answers rest =
      { s with
        trace := s.trace ++ extensionCommands s.cfg s.chPath base (answers.length + 1)
        cmdAnswers := rest
        phase := .run (.reading
          (encodeCommand s.cfg.opc (BitVec.ofNat 32 (base + answers.length)) 1 s.cfg.extFlag)
          (.extension ⟨form, start, len, n, base, answers.length, stagedBytes answers⟩)) } := by
  have ht : ((s.sendExtension (Extension.fresh form start len n base)).extended
      (Extension.fresh form start len n base) answers rest).trace =
      s.trace ++ extensionCommands s.cfg s.chPath base (answers.length + 1) := by
    simp [State.extended, extensionCommands_succ, Extension.cdb, Extension.fresh]
  simp only [State.extended] at ht ⊢
  rw [ht]
  simp only [Extension.takeAll, Extension.cdb, Extension.fresh, Nat.zero_add, List.nil_append]
  rfl

/-- The last accepted block: the whole stage is committed at once and the read answered (42_block_buffer R190, R191). -/
theorem awaitExtension_commits (s : State) (a : CmdAnswer) (rest : List CmdAnswer) (e : Extension) (hi : s.ArchInv)
    (hstage : (e.stage ++ a.bytes).length = e.n * s.cfg.bs) (ha : a.isBlock s.cfg.bs) (hn : e.i + 1 = e.n)
    (hfit : e.start + e.len ≤ s.mlen.toNat + e.n * s.cfg.bs) :
    let u : State := { s with
      cmdAnswers := rest
      data := s.data.append (e.stage ++ a.bytes)
      mlen := BitVec.ofNat 64 (s.mlen.toNat + e.n * s.cfg.bs) }
    State.awaitExtension (a :: rest) e s =
      .next (u.respond (e.form.response s.cfg.recordOrder (u.slice e.start e.len))) := by
  rw [awaitExtension_commit a rest e s ha (by omega)]
  have hl := hi.lengthIsMlen
  rw [finishRead_present _ _ _ _ (Memory.append_wf _ _ hi.dataOk)
    (by simp only [State.arenaAppend_data, Memory.append_length, hstage]; omega)]
  simp only [State.arenaAppend, hstage]

/-- The blocks a read needs cover it (42_block_buffer R185). -/
theorem State.lacks_covers (s : State) (stop n base : Nat) (hb : 0 < s.cfg.bs) (hl : s.lacks stop n base) :
    stop ≤ s.mlen.toNat + n * s.cfg.bs := by
  obtain ⟨h1, rfl, -⟩ := hl
  have := Nat.lt_mul_div_succ (stop - 1 - s.mlen.toNat) hb
  rw [Nat.mul_comm] at this
  omega

/-- A block size in range is positive (00_scope R10). -/
theorem State.ArchInv.bs_pos {s : State} (h : s.ArchInv) : 0 < s.cfg.bs := by
  have := h.cfgOk
  simp [Config.wf] at this
  omega

/-- What a tape holds for `n` commands: `n` blocks, or fewer and then a rejected answer, or fewer and no more. -/
theorem tape_cases (bs n : Nat) (tape : List CmdAnswer) :
    (∃ a r, tape = a ++ r ∧ a.length = n ∧ ∀ x ∈ a, x.isBlock bs) ∨
    (∃ a b r, tape = a ++ b :: r ∧ a.length < n ∧ (∀ x ∈ a, x.isBlock bs) ∧ ¬ b.isBlock bs) ∨
    (tape.length < n ∧ ∀ x ∈ tape, x.isBlock bs) := by
  induction n generalizing tape with
  | zero => exact .inl ⟨[], tape, rfl, rfl, by simp⟩
  | succ n ih =>
    cases tape with
    | nil => exact .inr (.inr ⟨by simp, by simp⟩)
    | cons x tl =>
      by_cases hx : x.isBlock bs
      · rcases ih tl with ⟨a, r, rfl, h1, h2⟩ | ⟨a, b, r, rfl, h1, h2, h3⟩ | ⟨h1, h2⟩
        · exact .inl ⟨x :: a, r, rfl, by simp [h1], by simpa [hx] using h2⟩
        · exact .inr (.inl ⟨x :: a, b, r, rfl, by simp [h1], by simpa [hx] using h2, h3⟩)
        · exact .inr (.inr ⟨by simp [h1], by simpa [hx] using h2⟩)
      · exact .inr (.inl ⟨[], x, tl, rfl, by simp, by simp, hx⟩)

/-! ### All that a read can do -/

/-- The three ends of a read: it waits for an answer, it has failed, or it has answered from the grown arena. -/
inductive ReadEnd (s t : State) (form : ReadForm) : Prop where
  | waits (data : t.data = s.data) (mlen : t.mlen = s.mlen) (responses : t.responses = s.responses)
      (phase : ∃ c e, t.phase = .run (.reading c (.extension e)))
  | failed (st : Status) (hst : st ∈ [Status.illegalRequest, .noView, .boundsError, .closed, .ioError])
      (data : t.data = s.data) (mlen : t.mlen = s.mlen) (responses : t.responses = s.responses ++ [failure st])
      (phase : t.phase = .idle)
  | done (stage bytes : List Byte) (data : t.data = s.data.append stage)
      (mlen : t.mlen = BitVec.ofNat 64 (s.mlen.toNat + stage.length))
      (responses : t.responses = s.responses ++ [form.response s.cfg.recordOrder bytes]) (phase : t.phase = .idle)

theorem ReadEnd.of_extension (s t : State) (form : ReadForm) (e : Extension)
    (h : ExtensionEnd (s.sendExtension e) t form) : ReadEnd s t form := by
  cases h with
  | waits hd hm hrs hp =>
    refine .waits hd hm hrs ?_
    rcases hp with hp | ⟨e', hp⟩
    · exact ⟨_, _, hp⟩
    · exact ⟨_, e', hp⟩
  | failed hd hm hrs hp => exact .failed .ioError (by simp) hd hm hrs hp
  | done st b hd hm hrs hp => exact .done st b hd hm hrs hp

/-- A read that raises, as an end of a read. -/
theorem ReadEnd.of_raise (s : State) (form : ReadForm) (st : Status)
    (hst : st ∈ [Status.illegalRequest, .noView, .boundsError, .closed, .ioError]) :
    s.SameRest (s.raise st) ∧
      (∃ sent, (s.raise st).trace = s.trace ++ sent ∧ ∀ x ∈ sent, isExtensionCommand s x) ∧
      ReadEnd s (s.raise st) form :=
  ⟨⟨rfl, rfl, rfl, rfl, rfl, rfl, rfl⟩, ⟨[], by simp⟩, .failed st hst rfl rfl rfl rfl⟩

/-- All that a read can do: its frame, its commands and its end. -/
theorem read_next (s t : State) (form : ReadForm) (vs : Byte) (offset length : Offset)
    (h : s.read form vs offset length = .next t) :
    s.SameRest t ∧ (∃ sent, t.trace = s.trace ++ sent ∧ ∀ x ∈ sent, isExtensionCommand s x) ∧ ReadEnd s t form := by
  have hc := read_cases s form vs offset length
  rw [h] at hc
  generalize hr : (Host.Outcome.next t : Result) = r at hc
  cases hc with
  | illegal h => cases hr; exact ReadEnd.of_raise s form _ (by simp)
  | noView hi h => cases hr; exact ReadEnd.of_raise s form _ (by simp)
  | bounds hi h => cases hr; exact ReadEnd.of_raise s form _ (by simp)
  | closed hi h => cases hr; exact ReadEnd.of_raise s form _ (by simp)
  | present hi hv hs hm =>
    obtain ⟨bytes, -, rfl⟩ := finishRead_next _ _ _ _ _ hr.symm
    exact ⟨⟨rfl, rfl, rfl, rfl, rfl, rfl, rfl⟩, ⟨[], by simp⟩, .done [] bytes (by simp) (by simp) rfl rfl⟩
  | extends_ e hi hv he hs hm hroom hlba ho =>
    obtain ⟨⟨h1, h2, h3, h4, h5, h6, h7⟩, ⟨sent, hsent, hall⟩, hend⟩ := awaitExtension_next _ _ _ _ hr.symm
    have hf : form = e.form := by rw [he]; rfl
    refine ⟨⟨h1, h2, h3, h4, h5, h6, h7⟩,
      ⟨.devCmd s.chPath (e.cdb s.cfg) (1 * s.cfg.bs) :: sent, by rw [hsent]; simp, ?_⟩,
      hf ▸ ReadEnd.of_extension s t _ e hend⟩
    intro x hx
    rcases List.mem_cons.1 hx with rfl | hx
    · exact ⟨_, rfl⟩
    · exact hall x hx

end Sys2Proof.Machine
end

