-- ==== Sys2Proof/Laws/Step.lean ====
section
/-! SUPPORT. All that one step can be. -/

namespace Sys2Proof.Machine

/-- A host request never decodes to the device command (30_encoding R90, R100). -/
theorem decode_hreq_ne_read10 (opc : Byte) (w : BitVec 160) (i : Instr) (h : decode opc (.hreq w) = .ok i)
    (flag : Byte) (lba : Lba) (count : Count) : i ≠ .read10 flag lba count := by
  rintro rfl
  simp only [decode, Hreq.decode] at h
  split at h <;> cases h

/-- A device command decodes to READ10 only. -/
theorem decodeCommand_read10 (opc : Byte) (cdb : List Byte) (i : Instr) (h : decodeCommand opc cdb = .ok i) :
    ∃ flag lba count, i = .read10 flag lba count := by
  unfold decodeCommand at h
  split at h
  · split at h
    · cases h
    split at h
    · cases h
    split at h
    · cases h
    cases h
    exact ⟨_, _, _, rfl⟩
  · cases h

/-- The cases of a step that answers: nothing presented; an answer to an OPEN; an accepted request, illegal or run; the
command on the device port. -/
theorem step_cases (s t : State) (h : step s = .next t) :
    (s.phase = .idle ∧ s.requests = [] ∧ t = s) ∨
    (∃ p, s.phase = .run (.opening p) ∧ t = s.awaitOpen p) ∨
    (s.phase = .idle ∧ ∃ w rest, s.requests = w :: rest ∧
      ((∃ e, decode s.cfg.opc (.hreq w) = .error e ∧ t = { s with requests := rest }.raise .illegalRequest) ∨
        ∃ i, decode s.cfg.opc (.hreq w) = .ok i ∧ (∀ f l c, i ≠ .read10 f l c) ∧
          exec i { s with requests := rest } = .next t)) ∨
    (∃ cdb k i, s.phase = .run (.reading cdb k) ∧ decode s.cfg.opc (.cdb10 cdb) = .ok i ∧
      (∃ f l c, i = .read10 f l c) ∧ exec i s = .next t) := by
  unfold step State.fetch at h
  cases hp : s.phase with
  | idle =>
    simp only [hp, State.fetchRequest] at h
    cases hr : s.requests with
    | nil =>
      simp only [hr] at h
      cases h
      exact .inl ⟨rfl, rfl, rfl⟩
    | cons w rest =>
      simp only [hr] at h
      refine .inr (.inr (.inl ⟨rfl, w, rest, rfl, ?_⟩))
      cases hd : decode s.cfg.opc (.hreq w) with
      | error e =>
        simp only [hd] at h
        cases h
        exact .inl ⟨e, rfl, rfl⟩
      | ok i =>
        simp only [hd] at h
        exact .inr ⟨i, rfl, decode_hreq_ne_read10 _ _ _ hd, h⟩
  | run r =>
    cases r with
    | opening p =>
      simp only [hp] at h
      cases h
      exact .inr (.inl ⟨p, rfl, rfl⟩)
    | reading cdb k =>
      simp only [hp, State.fetchCommand] at h
      cases hd : decode s.cfg.opc (.cdb10 cdb) with
      | error e =>
        simp only [hd] at h
        cases h
      | ok i =>
        simp only [hd] at h
        exact .inr (.inr (.inr ⟨cdb, k, i, rfl, hd, decodeCommand_read10 _ _ _ hd, h⟩))

end Sys2Proof.Machine
end

