-- ==== Sys2Proof/Tests/Slice0.lean ====
section
/-! SUPPORT. Tests. Expected values are those of spec/95_test_vectors (the vector's name stands at each test) or are
worked out by hand from the rule named; a small instance (`BS = 4`) keeps them short. Then the witnesses: for each
statement with hypotheses, states and operands that meet them, at the boundaries of its clauses. -/

namespace Sys2Proof.Machine.Test

/-! ### Helpers -/

/-- An instance of 4-byte blocks. -/
def cfg : Config :=
  { bs := 4, opc := 0x28, recordOrder := .le, extFlag := 0x00, nviews := 4, arenaCap := none }

/-- An open channel, an arena of two blocks at device byte 0, and a view table with a slot at 0, one at 2, one that
holds no view, and one at the last offset. -/
def small : State :=
  { State.resetOf cfg with
    chOpen := true
    chPath := 7
    data := cellsAt 0 [0x78, 0x56, 0x34, 0x12, 0xFE, 0xFF, 0x80, 0x00]
    mlen := 8
    views := [⟨true, 0⟩, ⟨true, 2⟩, ⟨false, 0⟩, ⟨true, 0xFFFFFFFFFFFFFFFF⟩] }

/-- The same with most significant byte first. -/
def smallBe : State := { small with cfg := { cfg with recordOrder := .be } }

/-- The same with a closed channel. -/
def closedCh : State := { small with chOpen := false }

/-- The same with an arena that may not grow beyond 12 bytes. -/
def capped : State := { small with cfg := { cfg with arenaCap := some 12 } }

/-- The same, anchored so that the arena's end is the last block a command can carry. -/
def atLastLba : State := { small with abs := 0x3FFFFFFF4 }

/-- An accepted block. -/
def block (b : Byte) : CmdAnswer := { ok := true, bytes := [b, b, b, b] }

/-- A short transfer. -/
def short : CmdAnswer := { ok := true, bytes := [1, 2, 3] }

/-- The last response an outcome holds. -/
def answerOf (o : Result) : Option Response :=
  match o with
  | .next t => t.responses.getLast?
  | .fault _ => none
  | .refused _ => none

/-- The state an outcome holds. -/
def stateOf (o : Result) : Option State :=
  match o with
  | .next t => some t
  | .fault _ => none
  | .refused _ => none

/-- The status of the last response of an outcome. -/
def statusOf (o : Result) : Option Status := (answerOf o).map (·.status)

/-! ### WellFormed refuses each ill-formed view index (30_encoding R102) -/

theorem test_wf_binit : (Instr.binit 4 0 0).wf cfg = false := by decide
theorem test_wf_derive_vd : (Instr.derive 4 0 0).wf cfg = false := by decide
theorem test_wf_derive_vs : (Instr.derive 0 4 0).wf cfg = false := by decide
theorem test_wf_adv : (Instr.adv 4 0).wf cfg = false := by decide
theorem test_wf_rdb : (Instr.rdb 4 0 0).wf cfg = false := by decide
theorem test_wf_u8 : (Instr.u8 4 0).wf cfg = false := by decide
theorem test_wf_i8 : (Instr.i8 4 0).wf cfg = false := by decide
theorem test_wf_u16 : (Instr.u16 4 0).wf cfg = false := by decide
theorem test_wf_i16 : (Instr.i16 4 0).wf cfg = false := by decide
theorem test_wf_u32 : (Instr.u32 4 0).wf cfg = false := by decide
theorem test_wf_i32 : (Instr.i32 255 0).wf cfg = false := by decide
theorem test_wf_txt : (Instr.txt 4 0 0).wf cfg = false := by decide
theorem test_wf_last_slot : (Instr.derive 3 3 0).wf cfg = true := by decide

/-- The parameters' ranges (92_eei_decisions "Parameters left open"). -/
theorem test_wf_config : Config.thisHardware.wf = true ∧ ({ cfg with bs := 0 } : Config).wf = false ∧
    ({ cfg with nviews := 0 } : Config).wf = false ∧ ({ cfg with nviews := 257 } : Config).wf = false ∧
    ({ cfg with arenaCap := some 5 } : Config).wf = false := by decide

/-! ### Decoding, on words written out from 30_encoding R97, R100 and R91 (95_test_vectors E3, K, B, P1 to P3, Q) -/

theorem test_decode_enc : decodeTableWord 160 0x0100005A0000000012345678000000000000ABCD =
    some (.enc 0x12345678 0xABCD 0x5A) := by decide
theorem test_decode_open : decodeTableWord 160 0x0200000000000000000000040000000000000000 = some (.openDev 4) := by
  decide
theorem test_decode_close_ignores : decodeTableWord 160 0x03FFFFFFFFFFFFFFFFFFFFFFFFFFFFFFFFFFFFFF =
    some .closeDev := by decide
theorem test_decode_rdblk : decodeTableWord 160 0x0400001000000000000000030000000000000002 =
    some (.rdblk 3 2 0x10) := by decide
theorem test_decode_binit : decodeTableWord 160 0x0800000000000000000020000000000000000004 =
    some (.binit 0 0x2000 4) := by decide
theorem test_decode_derive : decodeTableWord 160 0x0901000000000000000001FC0000000000000000 =
    some (.derive 1 0 0x1FC) := by decide
theorem test_decode_adv : decodeTableWord 160 0x0A01000000000000000001FE0000000000000000 =
    some (.adv 1 510) := by decide
theorem test_decode_rdb_ignores_vd : decodeTableWord 160 0x0B04000000000000000001FC0000000000000008 =
    some (.rdb 0 508 8) := by decide
theorem test_decode_u8 : decodeTableWord 160 0x1000000000000000000005FF0000000000000000 = some (.u8 0 1535) := by
  decide
theorem test_decode_i8 : decodeTableWord 160 0x1100000000000000000000030000000000000000 = some (.i8 0 3) := by
  decide
theorem test_decode_u16 : decodeTableWord 160 0x1200000000000000000001FE0000000000000000 = some (.u16 0 510) := by
  decide
theorem test_decode_i16 : decodeTableWord 160 0x1300010000000000000000000000000000000000 = some (.i16 1 0) := by
  decide
theorem test_decode_u32 : decodeTableWord 160 0x1400010000000000000000000000000000000000 = some (.u32 1 0) := by
  decide
theorem test_decode_i32 : decodeTableWord 160 0x1500010000000000000000000000000000000000 = some (.i32 1 0) := by
  decide
theorem test_decode_txt : decodeTableWord 160 0x18000000000000000000000C0000000000000004 =
    some (.txt 0 12 4) := by decide
theorem test_decode_read10 : decodeTableWord 80 0x28100102030410ABCD00 =
    some (.read10 0x10 0x01020304 0xABCD) := by decide

/-- Each rejection has its name (30_encoding R90, R94, R95, R101). -/
theorem test_decode_rejects :
    decode 0x28 (.hreq 0) = .error (.reservedOp 0) ∧
    decode 0x28 (.hreq 0x1600000000000000000000000000000000000000) = .error (.reservedOp 0x16) ∧
    decode 0x28 (.cdb10 [0x28]) = .error (.commandLength 1) ∧
    decode 0x28 (.cdb10 [0x2A, 0, 0, 0, 0, 0, 0, 0, 1, 0]) = .error (.commandOpcode 0x2A) ∧
    decode 0x28 (.cdb10 [0x28, 1, 0, 0, 0, 0, 2, 0, 1, 0]) = .error (.commandFlags 1 2) ∧
    decode 0x28 (.cdb10 [0x28, 0, 0, 0, 0, 0, 0, 0, 1, 9]) = .error (.commandControl 9) := by decide

/-- The written form of 30_encoding R106. -/
theorem test_asm_derive : (Instr.derive 1 0 0x1FC).asm = "DERIVE v1, v0, 508" := by decide

/-! ### One step of each operation -/

/-- E5, E6: the widest command, and the top bit of a field is data. -/
theorem test_enc_widest : answerOf (exec (.enc 0xFFFFFFFF 0xFFFF 0xFF) small) =
    some (success [0x28, 0xFF, 0xFF, 0xFF, 0xFF, 0xFF, 0xFF, 0xFF, 0xFF, 0x00]) := by decide
/-- E7, E8. -/
theorem test_enc_range : statusOf (exec (.enc 0x100000000 1 0) small) = some .boundsError ∧
    statusOf (exec (.enc 0 0x10000 0) small) = some .boundsError := by decide

/-- K1 to K4. -/
theorem test_open_answers : ([OpenAnswer.granted, .accessDenied, .notFound, .otherFailure].map fun a =>
    statusOf (exec (.openDev 7) { closedCh with openAnswers := [a] })) =
    [some .ok, some .permissionDenied, some .notFound, some .openFailed] := by decide
/-- K5: refused while open, the first path stays. -/
theorem test_open_again : exec (.openDev 9) small = .next (small.after (failure .openFailed)) := rfl

/-- K6. -/
theorem test_close : (stateOf (exec .closeDev small)).map (fun t => (t.chOpen, t.trace)) =
    some (false, [.devClose 7]) := by decide
/-- K7. -/
theorem test_close_closed : statusOf (exec .closeDev closedCh) = some .closed := by decide

/-- K9 with blocks of 4 bytes. -/
theorem test_rdblk : (stateOf (exec (.rdblk 3 2 0x10)
      { small with cmdAnswers := [⟨true, [1, 1, 1, 1, 2, 2, 2, 2]⟩] })).map (fun t => (t.trace, t.responses)) =
    some ([.devCmd 7 [0x28, 0x10, 0, 0, 0, 3, 0x10, 0, 2, 0] 8], [success [1, 1, 1, 1, 2, 2, 2, 2]]) := by decide
/-- K10 to K12, K15: short, long, rejected; and the range before the channel. -/
theorem test_rdblk_failures :
    ([(⟨true, [1, 1, 1]⟩ : CmdAnswer), ⟨true, [1, 1, 1, 1, 1]⟩, ⟨false, [1, 1, 1, 1]⟩].map fun a =>
      statusOf (exec (.rdblk 3 1 0) { small with cmdAnswers := [a] })) =
      [some .ioError, some .ioError, some .ioError] ∧
    statusOf (exec (.rdblk 0x100000000 1 0) closedCh) = some .boundsError := by decide

/-- R188, R195: a command that waits takes its block and sends the next. -/
theorem test_read10_next_command : (stateOf (exec (.read10 0 2 1) { small with
      phase := .run (.reading [0x28, 0, 0, 0, 0, 2, 0, 0, 1, 0] (.extension ⟨.u32, 10, 4, 2, 2, 0, []⟩))
      cmdAnswers := [block 0xAA] })).map (fun t => (t.trace, t.mlen)) =
    some ([.devCmd 7 [0x28, 0, 0, 0, 0, 3, 0, 0, 1, 0] 4], 8) := by decide
/-- R90: a command that does not stand on the port. -/
theorem test_read10_absent : exec (.read10 0 2 1) small = .fault .noCommandOutstanding := rfl

/-- B4. -/
theorem test_binit : (stateOf (exec (.binit 2 0x2000 4) small)).map
      (fun t => (t.data, t.mlen, t.abs, t.views.map (·.valid), t.view 2)) =
    some ([], 0, 0x2000, [false, false, true, false], ⟨true, 4⟩) := by decide
/-- B2, B3: the index is checked before the anchor. -/
theorem test_binit_refused : statusOf (exec (.binit 0 0x2001 0) small) = some .boundsError ∧
    statusOf (exec (.binit 4 0x2001 0) small) = some .illegalRequest := by decide

/-- B5, into the slot that holds no view. -/
theorem test_derive : (stateOf (exec (.derive 2 1 0x1FC) small)).map (fun t => (t.view 2, t.view 1)) =
    some (⟨true, 0x1FE⟩, ⟨true, 2⟩) := by decide
/-- B7, B8, B9. -/
theorem test_derive_refused : statusOf (exec (.derive 0 2 0) small) = some .noView ∧
    statusOf (exec (.derive 0 3 1) small) = some .boundsError ∧
    statusOf (exec (.derive 0 9 0) small) = some .illegalRequest := by decide

/-- B10. -/
theorem test_adv : (stateOf (exec (.adv 1 512) small)).map (fun t => t.view 1) = some ⟨true, 514⟩ := by decide
/-- B12, B13. -/
theorem test_adv_refused : statusOf (exec (.adv 2 1) small) = some .noView ∧
    statusOf (exec (.adv 3 1) small) = some .boundsError ∧ statusOf (exec (.adv 3 0) small) = some .ok := by decide

/-- S6 with blocks of 4 bytes: across the end of the arena. -/
theorem test_rdb_extends : (stateOf (exec (.rdb 0 4 8) { small with cmdAnswers := [block 0xAA] })).map
      (fun t => (t.trace, t.mlen, t.responses)) =
    some ([.devCmd 7 [0x28, 0, 0, 0, 0, 2, 0, 0, 1, 0] 4], 12,
      [success [0xFE, 0xFF, 0x80, 0x00, 0xAA, 0xAA, 0xAA, 0xAA]]) := by decide
/-- X13, X14, and X11: the zero length is followed to the letter. -/
theorem test_rdb_zero_length :
    (stateOf (exec (.rdb 0 8 0) small)).map (fun t => (t.trace, t.responses)) = some ([], [success []]) ∧
    (stateOf (exec (.rdb 0 9 0) { small with cmdAnswers := [block 1] })).map (fun t => (t.mlen, t.responses)) =
      some (12, [success []]) := by decide

/-- F7, F8 of the accessors' table. -/
theorem test_u8 : answerOf (exec (.u8 0 4) small) = some (successValue 254) := by decide
theorem test_i8 : answerOf (exec (.i8 0 4) small) = some (successValue 0xFFFFFFFE) := by decide
theorem test_u16_orders : answerOf (exec (.u16 0 0) small) = some (successValue 22136) ∧
    answerOf (exec (.u16 0 0) smallBe) = some (successValue 30806) := by decide
theorem test_i16_orders : answerOf (exec (.i16 1 2) small) = some (successValue 0xFFFFFFFE) ∧
    answerOf (exec (.i16 1 2) smallBe) = some (successValue 0xFFFFFEFF) := by decide
theorem test_u32_orders : answerOf (exec (.u32 0 0) small) = some (successValue 305419896) ∧
    answerOf (exec (.u32 0 0) smallBe) = some (successValue 2018915346) := by decide
theorem test_i32_orders : answerOf (exec (.i32 0 4) small) = some (successValue 0x0080FFFE) ∧
    answerOf (exec (.i32 0 4) smallBe) = some (successValue 0xFEFF8000) := by decide
/-- No stop at the zero byte. -/
theorem test_txt : answerOf (exec (.txt 1 4 2) small) = some (success [0x80, 0x00]) := by decide

/-- Y2, Y5, Y6, Y7, Y8, Y10, Y11 with blocks of 4 bytes. -/
theorem test_read_refusals : statusOf (exec (.u8 3 0) small) = some .boundsError ∧
    statusOf (exec (.rdb 0 12 1) capped) = some .boundsError ∧
    statusOf (exec (.rdb 0 11 1) { capped with cmdAnswers := [block 1] }) = some .ok ∧
    statusOf (exec (.rdb 0 0 8) closedCh) = some .ok ∧ statusOf (exec (.rdb 0 0 9) closedCh) = some .closed ∧
    statusOf (exec (.rdb 2 0 1) small) = some .noView ∧
    statusOf (exec (.rdb 7 0 1) small) = some .illegalRequest := by decide
/-- Y3, Y4, Y9: the last block a command can carry, and one more, before the channel is looked at. -/
theorem test_read_last_lba :
    statusOf (exec (.rdb 0 8 4) { atLastLba with cmdAnswers := [block 1] }) = some .ok ∧
    statusOf (exec (.rdb 0 8 5) { atLastLba with chOpen := false }) = some .boundsError := by decide

/-- An opcode-table word runs as the first instruction after reset. -/
theorem test_first_step_enc :
    statusOf (step (State.reset.withFetchWord 160 0x0100000000000000000000000000000000000001)) = some .ok := by decide
theorem test_first_step_read10 :
    step (State.reset.withFetchWord 80 0x28000000000000000000) =
      .next (State.reset.withFetchWord 80 0x28000000000000000000) := rfl

/-! ### Witnesses: what meets the hypotheses of each statement -/

/-- A U32 at offset 10 of the two-block arena needs two blocks; `i` of them are staged. -/
def running (i : Nat) (stage : List Byte) : Extension :=
  { form := .u32, start := 10, len := 4, n := 2, base := 2, i := i, stage := stage }

/-- That read, waiting for block `i`. -/
def waiting (i : Nat) (stage : List Byte) : State :=
  { small with phase := .run (.reading ((running i stage).cdb cfg) (.extension (running i stage))) }

/-- An RDBLK of two blocks that waits. -/
def waitingRdblk : State := { small with phase := .run (.reading (encodeCommand 0x28 3 2 0x10) .blocks) }

/-- An OPEN that waits. -/
def waitingOpen : State := { closedCh with phase := .run (.opening 9) }

/-- `small` meets the architectural invariants. -/
theorem small_archInv : small.ArchInv := by constructor <;> decide

theorem witness_inv : small.Inv := ⟨small_archInv, trivial⟩

/-- The second of two blocks is awaited: the invariant of a running extension at its last block. -/
theorem witness_inv_waiting : (waiting 1 [1, 2, 3, 4]).Inv :=
  ⟨by constructor <;> decide, ⟨rfl, rfl, by constructor <;> decide⟩⟩

theorem witness_inv_waitingRdblk : waitingRdblk.Inv :=
  ⟨by constructor <;> decide, ⟨rfl, 3, 2, 0x10, rfl⟩⟩

theorem witness_inv_waitingOpen : waitingOpen.Inv := ⟨by constructor <;> decide, rfl⟩

/-- EveryStepKeepsTheInvariant: a step from a state with the invariant, in each phase. -/
theorem witness_EveryStepKeepsTheInvariant :
    (small.Inv ∧ ∃ t, step { small with requests := [0x1000000000000000000000000000000000000000] } = .next t) ∧
    ((waiting 1 [1, 2, 3, 4]).Inv ∧
      ∃ t, step { waiting 1 [1, 2, 3, 4] with cmdAnswers := [block 9] } = .next t) ∧
    (waitingOpen.Inv ∧ ∃ t, step { waitingOpen with openAnswers := [.granted] } = .next t) :=
  ⟨⟨witness_inv, _, rfl⟩, ⟨witness_inv_waiting, _, rfl⟩, ⟨witness_inv_waitingOpen, _, rfl⟩⟩

theorem witness_InvariantHoldsAtReset : Config.thisHardware.wf = true ∧ cfg.wf = true := by decide

/-- IgnoredFieldsHaveNoEffect: CLOSE with every other field set and with none; and the encoded CLOSE. -/
theorem witness_IgnoredFieldsHaveNoEffect :
    (let h := Hreq.unpack 0x03FFFFFFFFFFFFFFFFFFFFFFFFFFFFFFFFFFFFFF
     let h' := Hreq.unpack 0x0300000000000000000000000000000000000000
     definedOp h.op = true ∧ h.op = h'.op ∧ usesVd h.op = false ∧ usesVs h.op = false ∧ usesFlag h.op = false ∧
       usesA h.op = false ∧ usesB h.op = false ∧ h.a ≠ h'.a) ∧
    encode 0x28 .closeDev = .hreq 0x0300000000000000000000000000000000000000 := by decide

/-- ReservedOpsAreIllegalRequests: both ends of each range of reserved codes. -/
theorem witness_ReservedOpsAreIllegalRequests :
    ([0x00, 0x05, 0x07, 0x0C, 0x0F, 0x16, 0x17, 0x19, 0xFF].map fun op =>
      definedOp op) = [false, false, false, false, false, false, false, false, false] ∧
    decode 0x28 (.hreq 0x0500000000000000000000000000000000000000) = .error (.reservedOp 5) ∧
    ({ small with requests := [0x0500000000000000000000000000000000000000] } : State).phase = .idle := by decide

theorem witness_CommandRoundTrip : encodeCommand 0x28 3 2 0x10 = encodeCommand 0x28 3 2 0x10 := rfl

/-- StepRunsTheDecodedInstruction: an accepted request, and a command on the port. -/
theorem witness_StepRunsTheDecodedInstruction :
    decode 0x28 (.hreq 0x1000000000000000000000040000000000000000) = .ok (.u8 0 4) ∧
    waitingRdblk.phase = .run (.reading (encodeCommand 0x28 3 2 0x10) .blocks) ∧
    decode 0x28 (.cdb10 (encodeCommand 0x28 3 2 0x10)) = .ok (.read10 0x10 3 2) := by decide

theorem witness_WaitingLeavesTheStateAsItIs :
    (small.phase = .idle ∧ small.requests = []) ∧
    (waitingOpen.phase = .run (.opening 9) ∧ waitingOpen.openAnswers = []) ∧
    (waitingRdblk.phase = .run (.reading (encodeCommand waitingRdblk.cfg.opc 3 2 0x10) .blocks) ∧
      waitingRdblk.cmdAnswers = []) := by decide

/-- RequestsAreAcceptedOneAtATimeInOrder: a step in IDLE that takes a request, one in RUN that takes none. -/
theorem witness_RequestsAreAcceptedOneAtATimeInOrder :
    (∃ t, step { small with requests := [0, 1] } = .next t ∧ t.requests = [1]) ∧
    (waitingOpen.phase ≠ .idle ∧ ∃ t, step { waitingOpen with openAnswers := [.notFound] } = .next t) :=
  ⟨⟨_, rfl, rfl⟩, by decide, _, rfl⟩

/-- EncGivesTheCommand: the two clauses at the ends of their ranges; and a request with its `op`. -/
theorem witness_EncGivesTheCommand :
    ((0xFFFFFFFF : Offset).toNat ≤ 2 ^ 32 - 1 ∧ (0xFFFF : Offset).toNat ≤ 65535) ∧
    ((0x100000000 : Offset).toNat > 2 ^ 32 - 1 ∧ (0x10000 : Offset).toNat > 65535) ∧
    (Hreq.unpack 0x0100000000000000000000000000000000000001).op = 0x01 := by decide

theorem witness_OpenOpensTheChannel :
    small.chOpen = true ∧
    (closedCh.chOpen = false ∧ ({ closedCh with openAnswers := [.granted] } : State).openAnswers = .granted :: []) ∧
    (Hreq.unpack 0x0200000000000000000000040000000000000000).op = 0x02 := by decide

theorem witness_CloseClosesTheChannel :
    small.chOpen = true ∧ closedCh.chOpen = false ∧
    (Hreq.unpack 0x0300000000000000000000000000000000000000).op = 0x03 := by decide

/-- RdblkReadsBlocks: out of range, closed, and each answer, at the last block and the largest count. -/
theorem witness_RdblkReadsBlocks :
    ((0x100000000 : Offset).toNat > 2 ^ 32 - 1 ∧ (0x10000 : Offset).toNat > 65535) ∧
    ((0xFFFFFFFF : Offset).toNat ≤ 2 ^ 32 - 1 ∧ (0xFFFF : Offset).toNat ≤ 65535 ∧ closedCh.chOpen = false) ∧
    (small.chOpen = true ∧ ({ small with cmdAnswers := [block 1] } : State).cmdAnswers = block 1 :: [] ∧
      (block 1).ok = true ∧ (block 1).bytes.length = (1 : Offset).toNat * small.cfg.bs) ∧
    ({ small with cmdAnswers := [short] } : State).cmdAnswers = short :: [] ∧
      ¬ (short.ok = true ∧ short.bytes.length = (1 : Offset).toNat * small.cfg.bs) ∧
    (Hreq.unpack 0x0400000000000000000000030000000000000002).op = 0x04 := by decide

theorem witness_UnansweredOperationsWait :
    (closedCh.chOpen = false ∧ closedCh.openAnswers = []) ∧
    ((0xFFFFFFFF : Offset).toNat ≤ 2 ^ 32 - 1 ∧ (0xFFFF : Offset).toNat ≤ 65535 ∧ small.chOpen = true ∧
      small.cmdAnswers = []) := by decide

/-- LateDevOpenAnswerEndsTheOpen: no answer, and each of the four. -/
theorem witness_LateDevOpenAnswerEndsTheOpen :
    (waitingOpen.phase = .run (.opening 9) ∧ waitingOpen.openAnswers = []) ∧
    ∀ a : OpenAnswer, ({ waitingOpen with openAnswers := [a] } : State).phase = .run (.opening 9) ∧
      ({ waitingOpen with openAnswers := [a] } : State).openAnswers = a :: [] :=
  ⟨by decide, fun _ => ⟨rfl, rfl⟩⟩

/-- Read10EndsAWaitingRdblk: no answer, an accepted one, a rejected one, and a command that does not stand there. -/
theorem witness_Read10EndsAWaitingRdblk :
    (waitingRdblk.phase = .run (.reading (encodeCommand waitingRdblk.cfg.opc 3 2 0x10) .blocks) ∧
      waitingRdblk.cmdAnswers = []) ∧
    (let a : CmdAnswer := ⟨true, [1, 1, 1, 1, 2, 2, 2, 2]⟩
     a.ok = true ∧ a.bytes.length = (2 : Count).toNat * waitingRdblk.cfg.bs) ∧
    ¬ (short.ok = true ∧ short.bytes.length = (2 : Count).toNat * waitingRdblk.cfg.bs) ∧
    (∀ k, small.phase ≠ .run (.reading (encodeCommand small.cfg.opc 3 2 0x10) k)) :=
  ⟨by decide, by decide, by decide, fun _ h => by cases h⟩

/-- Read10CarriesAnExtensionOn: a rejected answer, an accepted one that is not the last, and the last. -/
theorem witness_Read10CarriesAnExtensionOn :
    (waiting 0 []).phase =
      .run (.reading (encodeCommand (waiting 0 []).cfg.opc 2 1 0) (.extension (running 0 []))) ∧
    ¬ short.isBlock (waiting 0 []).cfg.bs ∧
    ((block 9).isBlock (waiting 0 []).cfg.bs ∧ (running 0 []).i + 1 < (running 0 []).n) ∧
    ((waiting 1 [1, 2, 3, 4]).phase = .run (.reading (encodeCommand (waiting 1 [1, 2, 3, 4]).cfg.opc 3 1 0)
        (.extension (running 1 [1, 2, 3, 4]))) ∧
      (running 1 [1, 2, 3, 4]).i + 1 = (running 1 [1, 2, 3, 4]).n ∧ (waiting 1 [1, 2, 3, 4]).Inv ∧
      ({ waiting 1 [1, 2, 3, 4] with cmdAnswers := [block 9] } : State).cmdAnswers = [block 9]) :=
  ⟨by decide, by simp [CmdAnswer.isBlock, short, waiting, small, State.resetOf, cfg], ⟨⟨rfl, rfl⟩, by decide⟩,
    ⟨by decide, rfl, witness_inv_waiting, rfl⟩⟩

/-- BinitBuildsTheBuffer: the first index that is no slot, an anchor inside a block, and the last slot. -/
theorem witness_BinitBuildsTheBuffer :
    small.cfg.nviews ≤ (4 : Byte).toNat ∧
    ((3 : Byte).toNat < small.cfg.nviews ∧ (0x2001 : Offset).toNat % small.cfg.bs ≠ 0) ∧
    ((3 : Byte).toNat < small.cfg.nviews ∧ (0xFFFFFFFFFFFFFFFC : Offset).toNat % small.cfg.bs = 0 ∧
      small.views.length = small.cfg.nviews) ∧
    (Hreq.unpack 0x0800000000000000000020000000000000000004).op = 0x08 := by decide

/-- DeriveMakesAView: an index that is no slot, a slot without a view, a sum one too large and the largest sum. -/
theorem witness_DeriveMakesAView :
    small.cfg.nviews ≤ (4 : Byte).toNat ∧
    ((0 : Byte).toNat < small.cfg.nviews ∧ (3 : Byte).toNat < small.cfg.nviews ∧
      small.views[(2 : Byte).toNat]? = some ⟨false, 0⟩ ∧ small.views[(3 : Byte).toNat]? = some ⟨true, -1⟩) ∧
    ((-1 : Offset).toNat + (1 : Offset).toNat > 2 ^ 64 - 1) ∧ ((-1 : Offset).toNat + (0 : Offset).toNat ≤ 2 ^ 64 - 1) ∧
    (Hreq.unpack 0x0901000000000000000001FC0000000000000000).op = 0x09 := by decide

/-- AdvMovesAView: the same boundaries. -/
theorem witness_AdvMovesAView :
    small.cfg.nviews ≤ (4 : Byte).toNat ∧ (3 : Byte).toNat < small.cfg.nviews ∧
    small.views[(2 : Byte).toNat]? = some ⟨false, 0⟩ ∧ small.views[(3 : Byte).toNat]? = some ⟨true, -1⟩ ∧
    ((-1 : Offset).toNat + (1 : Offset).toNat > 2 ^ 64 - 1) ∧ ((-1 : Offset).toNat + (0 : Offset).toNat ≤ 2 ^ 64 - 1) ∧
    (Hreq.unpack 0x0A01000000000000000001FE0000000000000000).op = 0x0A := by decide

/-- A read of the whole arena; and the reads that need a third block, or a third and a fourth. -/
theorem readsAt_whole : small.readsAt (.rdb 0 0 8) 0 8 :=
  ⟨0, 0, ⟨true, 0⟩, rfl, by decide, rfl, rfl, rfl, by decide⟩

theorem readsAt_u32 : small.readsAt (.u32 0 10) 10 4 :=
  ⟨0, 10, ⟨true, 0⟩, rfl, by decide, rfl, rfl, rfl, by decide⟩

theorem lacks_two : small.lacks (10 + 4) 2 2 := ⟨by decide, by decide, by decide⟩

theorem hasRoom_two : small.hasRoom 2 := ⟨by decide, fun _ h => by cases h⟩

/-- ReadsRefuseInOrder: the first index that is no slot, a slot without a view, a range that ends one too far, an arena
that would pass its cap, a block past the last one, a closed channel. -/
theorem witness_ReadsRefuseInOrder :
    (readOf (.u8 4 0) = some (4, 0, 1) ∧ small.cfg.nviews ≤ (4 : Byte).toNat) ∧
    (readOf (.u8 2 0) = some (2, 0, 1) ∧ small.views[(2 : Byte).toNat]? = some ⟨false, 0⟩) ∧
    (readOf (.u8 3 0) = some (3, 0, 1) ∧ small.views[(3 : Byte).toNat]? = some ⟨true, -1⟩ ∧
      (-1 : Offset).toNat + (0 : Offset).toNat + 1 > 2 ^ 64 - 1) ∧
    (capped.readsAt (.u32 0 10) 10 4 ∧ capped.lacks (10 + 4) 2 2 ∧ ¬ capped.hasRoom 2) ∧
    (atLastLba.readsAt (.u32 0 10) 10 4 ∧ atLastLba.lacks (10 + 4) 2 (2 ^ 32 - 1) ∧
      (2 ^ 32 - 1) + 2 - 1 > 2 ^ 32 - 1) ∧
    (closedCh.readsAt (.u32 0 10) 10 4 ∧ closedCh.lacks (10 + 4) 2 2 ∧ closedCh.hasRoom 2 ∧ 2 + 2 - 1 ≤ 2 ^ 32 - 1 ∧
      closedCh.chOpen = false) := by
  refine ⟨by decide, by decide, by decide, ⟨readsAt_u32, ⟨by decide, by decide, by decide⟩, ?_⟩,
    ⟨readsAt_u32, ⟨by decide, by decide, by decide⟩, by decide⟩,
    ⟨readsAt_u32, lacks_two, hasRoom_two, by decide, rfl⟩⟩
  intro h
  have := h.2 12 rfl
  revert this
  decide

/-- ReadsOfPresentBytes: up to the last byte of the arena. -/
theorem witness_ReadsOfPresentBytes :
    small.ArchInv ∧ small.readsAt (.rdb 0 0 8) 0 8 ∧ 0 + 8 ≤ small.mlen.toNat :=
  ⟨small_archInv, readsAt_whole, by decide⟩

/-- ReadsExtendTheArena: two blocks, both answered. -/
theorem witness_ReadsExtendTheArena :
    small.ArchInv ∧ small.readsAt (.u32 0 10) 10 4 ∧ small.lacks (10 + 4) 2 2 ∧ small.hasRoom 2 ∧
    2 + 2 - 1 ≤ 2 ^ 32 - 1 ∧ small.chOpen = true ∧
    ({ small with cmdAnswers := [block 1, block 2] } : State).cmdAnswers = [block 1, block 2] ++ [] ∧
    [block 1, block 2].length = 2 ∧ (∀ a ∈ [block 1, block 2], a.isBlock small.cfg.bs) :=
  ⟨small_archInv, readsAt_u32, lacks_two, hasRoom_two, by decide, rfl, rfl, rfl, by
    intro a ha
    rcases List.mem_cons.1 ha with rfl | ha
    · exact ⟨rfl, rfl⟩
    · rcases List.mem_cons.1 ha with rfl | ha
      · exact ⟨rfl, rfl⟩
      · cases ha⟩

/-- FailedExtensionLeavesTheArena: a closed channel; the second of two answers is short. -/
theorem witness_FailedExtensionLeavesTheArena :
    (closedCh.readsAt (.u32 0 10) 10 4 ∧ closedCh.lacks (10 + 4) 2 2 ∧ closedCh.hasRoom 2 ∧
      closedCh.chOpen = false) ∧
    (small.readsAt (.u32 0 10) 10 4 ∧ small.lacks (10 + 4) 2 2 ∧ small.hasRoom 2 ∧ small.chOpen = true ∧
      ({ small with cmdAnswers := [block 1, short] } : State).cmdAnswers = [block 1] ++ short :: [] ∧
      [block 1].length < 2 ∧ (block 1).isBlock small.cfg.bs ∧ ¬ short.isBlock small.cfg.bs) :=
  ⟨⟨readsAt_u32, lacks_two, hasRoom_two, rfl⟩, readsAt_u32, lacks_two, hasRoom_two, rfl, rfl, by decide, ⟨rfl, rfl⟩,
    by simp [CmdAnswer.isBlock, short, small, State.resetOf, cfg]⟩

/-- SuspendedExtensionHoldsItsStage: one of two blocks is answered. -/
theorem witness_SuspendedExtensionHoldsItsStage :
    small.readsAt (.u32 0 10) 10 4 ∧ small.lacks (10 + 4) 2 2 ∧ small.hasRoom 2 ∧ small.chOpen = true ∧
    ({ small with cmdAnswers := [block 1] } : State).cmdAnswers.length < 2 ∧ (block 1).isBlock small.cfg.bs :=
  ⟨readsAt_u32, lacks_two, hasRoom_two, rfl, by decide, ⟨rfl, rfl⟩⟩

/-- LateAnswersChangeNothing: a step that runs out of answers after the first of two, and an OPEN with none. -/
theorem witness_LateAnswersChangeNothing :
    (∃ t cdb k, step { small with requests := [0x14000000000000000000000A0000000000000000], cmdAnswers := [block 1] } =
      .next t ∧ t.phase = .run (.reading cdb k)) ∧
    (∃ t path, step { closedCh with requests := [0x0200000000000000000000040000000000000000], openAnswers := [] } =
      .next t ∧ t.phase = .run (.opening path)) := ⟨⟨_, _, _, rfl, rfl⟩, ⟨_, _, rfl, rfl⟩⟩

theorem witness_TxtReturnsWhatRdbReturns :
    ∃ t, t.phase = .idle ∧ exec (.txt 0 0 8) small = .next t ∧ exec (.rdb 0 0 8) small = .next t := ⟨_, rfl, rfl, rfl⟩

theorem witness_BlockCountIsLeast : 0 < 512 ∧ 512 < 513 ∧ 513 - 1 < 512 + 1 * 512 := by decide

/-- ReadGuarantees: a read that extends by one block and answers, and one that does not extend. -/
theorem witness_ReadGuarantees :
    (∃ t r, small.ArchInv ∧ exec (.rdb 0 4 8) { small with cmdAnswers := [block 9] } = .next t ∧
      t.responses = small.responses ++ [r] ∧ r.status = .ok ∧ small.lacks (4 + 8) 1 2 ∧
      t.readsAt (.u8 1 9) 11 1 ∧ 11 + 1 ≤ 4 + 8) ∧
    (∃ t r, exec (.rdb 0 0 8) small = .next t ∧ t.responses = small.responses ++ [r] ∧ r.status = .ok ∧
      0 + 8 ≤ small.mlen.toNat) :=
  ⟨⟨_, _, small_archInv, rfl, rfl, rfl, ⟨by decide, by decide, by decide⟩,
      ⟨1, 9, ⟨true, 2⟩, rfl, by decide, rfl, rfl, rfl, by decide⟩, by decide⟩,
    ⟨_, _, rfl, rfl, rfl, by decide⟩⟩

/-- The image of the mirror witness: block `b` holds four bytes `b`. -/
def image (b : Nat) : List Byte := List.replicate 4 (BitVec.ofNat 8 b)

/-- A state that mirrors `image` with `blocks` blocks of it in the arena, the next two answered from it. -/
def mirroring (blocks : Nat) : State :=
  { State.resetOf cfg with
    chOpen := true
    data := cellsAt 0 ((List.range blocks).flatMap image)
    mlen := BitVec.ofNat 64 (blocks * 4)
    views := [⟨true, 0⟩, ⟨false, 0⟩, ⟨false, 0⟩, ⟨false, 0⟩]
    cmdAnswers := (List.range 2).map (fun j => imageAnswer image 4 (blocks + j) 1) }

/-- ReadsMirrorTheDisk: present bytes up to the arena's last, and an extension by two blocks, the last of the image,
through RDB into an empty arena and through U32 into one of two blocks. -/
theorem witness_ReadsMirrorTheDisk :
    ((mirroring 2).ArchInv ∧ (mirroring 2).mirrors image ∧ (∀ b, (image b).length = (mirroring 2).cfg.bs) ∧
      (mirroring 2).readsAt (.i16 0 6) 6 2 ∧ 6 + 2 ≤ (mirroring 2).mlen.toNat) ∧
    ((mirroring 2).readsAt (.u32 0 12) 12 4 ∧ (mirroring 2).lacks (12 + 4) 2 2 ∧ (mirroring 2).hasRoom 2 ∧
      2 + 2 - 1 ≤ 2 ^ 32 - 1 ∧ 2 + 2 ≤ 4 ∧ (mirroring 2).chOpen = true ∧
      (mirroring 2).cmdAnswers = (List.range 2).map (fun j => imageAnswer image 4 (2 + j) 1) ++ []) ∧
    ((mirroring 0).ArchInv ∧ (mirroring 0).mirrors image ∧ (mirroring 0).readsAt (.rdb 0 3 5) 3 5 ∧
      (mirroring 0).lacks (3 + 5) 2 0 ∧ (mirroring 0).hasRoom 2 ∧
      (mirroring 0).cmdAnswers = (List.range 2).map (fun j => imageAnswer image 4 (0 + j) 1) ++ []) := by
  refine ⟨⟨⟨by decide, by decide, by decide, by decide, by decide, by decide, by decide, by decide⟩, ?_,
      fun b => by simp [image, mirroring, State.resetOf, cfg],
      ⟨0, 6, ⟨true, 0⟩, rfl, by decide, rfl, rfl, rfl, by decide⟩, by decide⟩,
    ⟨⟨0, 12, ⟨true, 0⟩, rfl, by decide, rfl, rfl, rfl, by decide⟩, ⟨by decide, by decide, by decide⟩,
      ⟨by decide, fun _ h => by cases h⟩, by decide, by decide, rfl, by decide⟩,
    ⟨by decide, by decide, by decide, by decide, by decide, by decide, by decide, by decide⟩, ?_,
    ⟨0, 3, ⟨true, 0⟩, rfl, by decide, rfl, rfl, rfl, by decide⟩, ⟨by decide, by decide, by decide⟩,
    ⟨by decide, fun _ h => by cases h⟩, by decide⟩
  · show ∀ k, k < 8 → _
    decide
  · intro k hk
    exact absurd hk (Nat.not_lt_zero k)

/-- FailuresArePrecise, OneResponseOrWaiting, OnlyReadCommandsAreSent: a step that fails after sending a command, one that
answers, one that waits. -/
theorem witness_FailuresArePrecise :
    (∃ t, step { small with requests := [0x14000000000000000000000A0000000000000000], cmdAnswers := [short] } = .next t ∧
      t.responses = [failure .ioError]) ∧
    (∃ t, step { small with requests := [0x1400000000000000000000000000000000000000] } = .next t ∧
      t.responses = [successValue 0x12345678]) := ⟨⟨_, rfl, rfl⟩, ⟨_, rfl, rfl⟩⟩

theorem witness_OneResponseOrWaiting :
    (∃ t, exec (.u32 0 10) { small with cmdAnswers := [short] } = .next t) ∧
    (∃ t w, exec (.u32 0 10) small = .next t ∧ t.phase = .run w) := ⟨⟨_, rfl⟩, ⟨_, _, rfl, rfl⟩⟩

/-- StatusesOfEachOperation: an answer `Ok` and a failure of a read, and of READ10. -/
theorem witness_StatusesOfEachOperation :
    (∃ t, exec (.u32 0 0) small = .next t ∧ t.responses = small.responses ++ [successValue 0x12345678]) ∧
    (∃ t, exec (.read10 0x10 3 2) { waitingRdblk with cmdAnswers := [short] } = .next t ∧
      t.responses = waitingRdblk.responses ++ [failure .ioError]) := ⟨⟨_, rfl, rfl⟩, ⟨_, rfl, rfl⟩⟩

theorem witness_OnlyReadCommandsAreSent :
    ∃ t p cdb x, step { small with requests := [0x14000000000000000000000A0000000000000000] } = .next t ∧
      t.trace = small.trace ++ [.devCmd p cdb x] := ⟨_, _, _, _, rfl, rfl⟩

/-- ArenaIsAppendOnly: a step that runs BINIT and one that extends. -/
theorem witness_ArenaIsAppendOnly :
    small.Inv ∧
    (∃ t, step { small with requests := [0x0800000000000000000020000000000000000004] } = .next t ∧ t.mlen = 0) ∧
    (∃ t, step { small with requests := [0x1000000000000000000000080000000000000000], cmdAnswers := [block 1] } =
      .next t ∧ t.mlen = 12) := ⟨witness_inv, ⟨_, rfl, rfl⟩, ⟨_, rfl, rfl⟩⟩

/-- OnlyOpenAndCloseChangeTheChannel: a granted OPEN at once and late, a denied OPEN and one on an open channel, which
leave the channel, and a CLOSE. -/
theorem witness_OnlyOpenAndCloseChangeTheChannel :
    (∃ t, step { closedCh with
        requests := [0x0200000000000000000000040000000000000000], openAnswers := [.granted] } = .next t ∧
      t.chOpen = true ∧ t.chPath = 4) ∧
    (∃ t, step { waitingOpen with openAnswers := [.granted] } = .next t ∧ t.chOpen = true ∧ t.chPath = 9) ∧
    (∃ t, step { closedCh with
        requests := [0x0200000000000000000000040000000000000000], openAnswers := [.accessDenied] } = .next t ∧
      t.chOpen = false ∧ t.chPath = 7) ∧
    (∃ t, step { small with
        requests := [0x0200000000000000000000040000000000000000], openAnswers := [.granted] } = .next t ∧
      t.chOpen = true ∧ t.chPath = 7) ∧
    (∃ t, step { small with requests := [0x0300000000000000000000000000000000000000] } = .next t ∧
      t.chOpen = false) :=
  ⟨⟨_, rfl, rfl, rfl⟩, ⟨_, rfl, rfl, rfl⟩, ⟨_, rfl, rfl, rfl⟩, ⟨_, rfl, rfl, rfl⟩, ⟨_, rfl, rfl⟩⟩

/-- ViewsOnlyMoveForward: ADV on a valid slot, DERIVE over a valid slot, a read. -/
theorem witness_ViewsOnlyMoveForward :
    (∃ t, exec (.adv 1 512) small = .next t) ∧ (∃ t, exec (.derive 1 0 0) small = .next t) ∧
    (∃ t, exec (.u8 1 0) small = .next t) ∧ small.views[1]? = some ⟨true, 2⟩ ∧ (View.mk true 2).valid = true :=
  ⟨⟨_, rfl⟩, ⟨_, rfl⟩, ⟨_, rfl⟩, rfl, rfl⟩

/-- IllFormedRequestsAreIllegal: Q3, the first index that is no slot. -/
theorem witness_IllFormedRequestsAreIllegal :
    decode small.cfg.opc (.hreq 0x0B00040000000000000000000000000000000001) = .ok (.rdb 4 0 1) ∧
    (Instr.rdb 4 0 1).wf small.cfg = false ∧ small.phase = .idle := by decide

end Sys2Proof.Machine.Test
end

namespace Sys2Proof.Machine

/-! SUPPORT. The steps' equations, what keeps the invariant, and what one operation can do. -/

/-! ### What one step runs -/

/-- In IDLE the request at the head of the port is taken and run (10_state R46). -/
theorem step_request {s : State} {w : BitVec 160} {rest : List (BitVec 160)} {i : Instr} (hp : s.phase = .idle)
    (hr : s.requests = w :: rest) (hd : decode s.cfg.opc (.hreq w) = .ok i) :
    step s = exec i { s with requests := rest } := by
  simp only [step, State.fetch, hp, State.fetchRequest, hr, hd]

/-- In IDLE a request that spells no operation is taken and refused (30_encoding R101). -/
theorem step_reserved {s : State} {w : BitVec 160} {rest : List (BitVec 160)} {e : DecodeRefusal} (hp : s.phase = .idle)
    (hr : s.requests = w :: rest) (hd : decode s.cfg.opc (.hreq w) = .error e) :
    step s = .next ({ s with requests := rest }.raise .illegalRequest) := by
  simp only [step, State.fetch, hp, State.fetchRequest, hr, hd]

theorem step_noRequest {s : State} (hp : s.phase = .idle) (hr : s.requests = []) : step s = .next s := by
  simp only [step, State.fetch, hp, State.fetchRequest, hr]

theorem step_opening {s : State} {path : Path} (hp : s.phase = .run (.opening path)) :
    step s = .next (s.awaitOpen path) := by
  simp only [step, State.fetch, hp]

/-- In RUN the command on the device port is run as the READ10 it is (log 8). -/
theorem step_command {s : State} {cdb : List Byte} {k : Continuation} {i : Instr}
    (hp : s.phase = .run (.reading cdb k)) (hd : decode s.cfg.opc (.cdb10 cdb) = .ok i) : step s = exec i s := by
  simp only [step, State.fetch, hp, State.fetchCommand, hd]

/-- The command of an RDBLK on the port awaits its answer. -/
theorem step_blocks {s : State} {lba : Lba} {count : Count} {flag : Byte}
    (hp : s.phase = .run (.reading (encodeCommand s.cfg.opc lba count flag) .blocks)) :
    step s = .next (s.awaitBlocks count.toNat) :=
  (step_command hp (decodeCommand_encodeCommand _ _ _ _)).trans (exec_read10_blocks s lba count flag hp)

/-- The command of an extension on the port takes the extension on. -/
theorem step_extension {s : State} {e : Extension} (hp : s.phase = .run (.reading (e.cdb s.cfg) (.extension e))) :
    step s = State.awaitExtension s.cmdAnswers e s :=
  (step_command hp (decodeCommand_encodeCommand _ _ _ _)).trans (exec_read10_extension s _ _ _ e hp)

/-! ### What the invariant reads -/

/-- The architectural invariants read the parameters, the size of the view table and the arena only. -/
theorem State.ArchInv.congr {s t : State} (h : s.ArchInv) (hcfg : t.cfg = s.cfg)
    (hviews : t.views.length = s.views.length) (hdata : t.data = s.data) (hmlen : t.mlen = s.mlen)
    (habs : t.abs = s.abs) : t.ArchInv := by
  obtain ⟨h1, h2, h3, h4, h5, h6, h7, h8⟩ := h
  constructor <;> simpa only [hcfg, hviews, hdata, hmlen, habs]

/-- In IDLE nothing is outstanding: the invariant is the architectural one (10_state R47). -/
theorem State.ArchInv.idle {s t : State} (h : s.ArchInv) (hp : t.phase = .idle) (hcfg : t.cfg = s.cfg)
    (hviews : t.views.length = s.views.length) (hdata : t.data = s.data) (hmlen : t.mlen = s.mlen)
    (habs : t.abs = s.abs) : t.Inv :=
  ⟨h.congr hcfg hviews hdata hmlen habs, by simp only [State.PhaseInv, hp]⟩

theorem State.ArchInv.respond {s : State} (h : s.ArchInv) (r : Response) : (s.respond r).Inv :=
  h.idle rfl rfl rfl rfl rfl rfl

theorem State.ArchInv.raise {s : State} (h : s.ArchInv) (st : Status) : (s.raise st).Inv := h.respond _

theorem State.ArchInv.succeed {s : State} (h : s.ArchInv) (payload : List Byte) : (s.succeed payload).Inv :=
  h.respond _

/-- Taking a request from the port leaves the architectural invariants. -/
theorem State.ArchInv.takeRequest {s : State} (h : s.ArchInv) (rest : List (BitVec 160)) :
    State.ArchInv { s with requests := rest } :=
  h.congr rfl rfl rfl rfl rfl

theorem State.phaseInv_opening {s : State} {path : Path} (hp : s.phase = .run (.opening path)) :
    s.PhaseInv ↔ s.chOpen = false := by
  simp only [State.PhaseInv, hp]

theorem State.phaseInv_blocks {s : State} {cdb : List Byte} (hp : s.phase = .run (.reading cdb .blocks)) :
    s.PhaseInv ↔ s.chOpen = true ∧ ∃ lba count flag, cdb = encodeCommand s.cfg.opc lba count flag := by
  simp only [State.PhaseInv, hp]

theorem State.phaseInv_extension {s : State} {cdb : List Byte} {e : Extension}
    (hp : s.phase = .run (.reading cdb (.extension e))) :
    s.PhaseInv ↔ s.chOpen = true ∧ cdb = e.cdb s.cfg ∧ e.Inv s := by
  simp only [State.PhaseInv, hp]

/-- Reset meets the architectural invariants (10_state R51). -/
theorem archInv_resetOf {c : Config} (h : c.wf = true) : (State.resetOf c).ArchInv where
  cfgOk := h
  slots := List.length_replicate
  dataOk := Memory.wf_nil
  lengthIsMlen := rfl
  mlenAligned := Nat.zero_mod _
  absAligned := Nat.zero_mod _
  withinCap := Nat.zero_le _
  lbasFit h0 := absurd h0 (Nat.lt_irrefl 0)

/-! ### The invariant of a running extension -/

namespace Extension.Inv

variable {s t : State} {e : Extension}

/-- It reads the parameters, the anchor and the materialized length only. -/
theorem congr (h : e.Inv s) (hcfg : t.cfg = s.cfg) (hmlen : t.mlen = s.mlen) (habs : t.abs = s.abs) : e.Inv t := by
  obtain ⟨h1, h2, h3, h4, h5, h6, h7, h8⟩ := h
  constructor <;> simpa only [hcfg, hmlen, habs]

/-- Its blocks reach the last byte asked for (42_block_buffer R185). -/
theorem covers (h : e.Inv s) (hs : s.ArchInv) : e.start + e.len ≤ s.mlen.toNat + e.n * s.cfg.bs :=
  s.lacks_covers _ _ _ hs.bs_pos ⟨h.needed, h.blocks, h.first⟩

/-- A staged block takes it on, while it is not the last (42_block_buffer R195). -/
theorem take (h : e.Inv s) {block : List Byte} (hb : block.length = s.cfg.bs) (hn : e.i + 1 < e.n) :
    (e.take block).Inv s :=
  { h with
    stageLength := by simp [h.stageLength, hb, Nat.add_mul]
    unfinished := hn }

/-- The materialized length after the commit still fits its 64 bits (42_block_buffer R186). -/
theorem commit_fits (h : e.Inv s) : s.mlen.toNat + e.n * s.cfg.bs ≤ maxOffset :=
  ((le_arenaLimit_iff _ _).1 h.fits).1

end Extension.Inv

/-- The commit of an extension's blocks keeps the architectural invariants (42_block_buffer R190, 10_state R36). -/
theorem State.ArchInv.commit {s : State} {e : Extension} {stage : List Byte} (hs : s.ArchInv) (he : e.Inv s)
    (hstage : stage.length = e.n * s.cfg.bs) :
    (s.arenaAppend stage).mlen.toNat = s.mlen.toNat + e.n * s.cfg.bs ∧ (s.arenaAppend stage).ArchInv := by
  have hfits := he.commit_fits
  have hlba := he.lbasFit
  have hm : (s.arenaAppend stage).mlen.toNat = s.mlen.toNat + e.n * s.cfg.bs := by
    rw [State.arenaAppend_mlen, hstage, BitVec.toNat_ofNat, Nat.mod_eq_of_lt]
    unfold maxOffset at hfits
    omega
  have hblocks : (s.abs.toNat + (s.mlen.toNat + e.n * s.cfg.bs)) / s.cfg.bs = e.base + e.n := by
    rw [← Nat.add_assoc, Nat.add_mul_div_right _ _ hs.bs_pos, he.first]; rfl
  refine ⟨hm, hs.cfgOk, hs.slots, Memory.append_wf _ _ hs.dataOk, ?_, ?_, hs.absAligned, ?_, ?_⟩
  · rw [hm, State.arenaAppend_data, Memory.append_length, hstage, hs.lengthIsMlen]
  · rw [hm, State.arenaAppend_cfg, Nat.add_mul_mod_self_right, hs.mlenAligned]
  · rw [hm]
    exact he.fits
  · intro _
    rw [hm, State.arenaAppend_abs, State.arenaAppend_cfg, hblocks]
    unfold maxLba at hlba
    omega

/-! ### Every operation answers a state with the invariant -/

/-- The outcome is a next state, and that state has the invariant. -/
def AnswersInv (r : Result) : Prop := ∃ t, r = .next t ∧ t.Inv

theorem AnswersInv.next {t : State} (h : t.Inv) : AnswersInv (.next t) := ⟨t, rfl, h⟩

theorem awaitOpen_inv {s : State} (h : s.Inv) (path : Path) : (s.awaitOpen path).Inv := by
  rcases awaitOpen_cases s path with ⟨-, hw⟩ | ⟨answer, rest, -, ha⟩
  · rwa [hw]
  · rw [ha]
    cases answer <;> exact h.arch.idle rfl rfl rfl rfl rfl rfl

theorem awaitBlocks_inv {s : State} (h : s.Inv) (count : Nat) : (s.awaitBlocks count).Inv := by
  rcases awaitBlocks_cases s count with ⟨-, hw⟩ | ⟨answer, rest, -, ⟨-, ha⟩ | ⟨-, ha⟩⟩
  · rwa [hw]
  · exact ha ▸ h.arch.idle rfl rfl rfl rfl rfl rfl
  · exact ha ▸ h.arch.idle rfl rfl rfl rfl rfl rfl

/-- The end of a read finds its bytes, so the fault `arenaHole` does not occur (log 11). -/
theorem finishRead_answers {s : State} (h : s.ArchInv) (form : ReadForm) {start len : Nat}
    (hp : start + len ≤ s.mlen.toNat) : AnswersInv (s.finishRead form start len) := by
  rw [finishRead_present s form start len h.dataOk (h.lengthIsMlen ▸ hp)]
  exact .next (h.respond _)

/-- A sent command of an extension puts that extension on the sequencer. -/
theorem sendExtension_inv {s : State} {e : Extension} (hs : s.ArchInv) (ho : s.chOpen = true) (he : e.Inv s) :
    (s.sendExtension e).Inv :=
  ⟨hs.congr rfl rfl rfl rfl rfl, ho, rfl, he.congr rfl rfl rfl⟩

/-- The extension loop answers a state with the invariant, whatever the environment has answered. -/
theorem awaitExtension_answers (tape : List CmdAnswer) {e : Extension} {s : State} (hs : s.Inv) (ho : s.chOpen = true)
    (he : e.Inv s) : AnswersInv (State.awaitExtension tape e s) := by
  induction tape generalizing e s with
  | nil => exact .next hs
  | cons a rest ih =>
    have harch : State.ArchInv { s with cmdAnswers := rest } := hs.arch.congr rfl rfl rfl rfl rfl
    have he' : e.Inv { s with cmdAnswers := rest } := he.congr rfl rfl rfl
    by_cases ha : a.isBlock s.cfg.bs
    · by_cases hn : e.i + 1 < e.n
      · rw [awaitExtension_more a rest e s ha hn]
        have htake := he'.take ha.2 hn
        exact ih (sendExtension_inv harch ho htake) ho (htake.congr rfl rfl rfl)
      · rw [awaitExtension_commit a rest e s ha hn]
        have hlast : e.n = e.i + 1 := by have := he.unfinished; omega
        have hstage : (e.stage ++ a.bytes).length = e.n * s.cfg.bs := by
          rw [List.length_append, he.stageLength, ha.2, hlast, Nat.succ_mul]
        obtain ⟨hm, hcommit⟩ := harch.commit he' hstage
        exact finishRead_answers hcommit e.form (hm ▸ he'.covers harch)
    · rw [awaitExtension_reject a rest e s ha]
      exact .next (harch.raise _)

/-- The extension a read starts has the invariant of a running extension. -/
theorem extensionFor_inv {s : State} {form : ReadForm} {start len : Nat}
    (hs : start + len ≤ maxOffset) (hm : s.mlen.toNat < start + len)
    (hroom : s.mlen.toNat + (s.extensionFor form start len).n * s.cfg.bs ≤ arenaLimit s.cfg)
    (hlba : (s.extensionFor form start len).base + (s.extensionFor form start len).n - 1 ≤ maxLba) :
    (s.extensionFor form start len).Inv s where
  stageLength := (Nat.zero_mul _).symm
  unfinished := Nat.succ_pos _
  blocks := rfl
  first := rfl
  needed := hm
  stopFits := hs
  fits := hroom
  lbasFit := hlba

theorem read_answers {s : State} (h : s.ArchInv) (form : ReadForm) (vs : Byte) (offset length : Offset) :
    AnswersInv (s.read form vs offset length) := by
  have hc := read_cases s form vs offset length
  generalize s.read form vs offset length = r at hc
  cases hc with
  | illegal _ => exact .next (h.raise _)
  | noView _ _ => exact .next (h.raise _)
  | bounds _ _ => exact .next (h.raise _)
  | closed _ _ _ => exact .next (h.raise _)
  | present _ _ _ hm => exact finishRead_answers h form hm
  | extends_ e _ _ he hs hm hroom hlba ho =>
    subst he
    have hinv := extensionFor_inv hs hm hroom hlba
    exact awaitExtension_answers _ (sendExtension_inv h ho hinv) ho (hinv.congr rfl rfl rfl)

/-! ### What one operation can do -/

/-- The operations that change the channel, the anchor or a view, where they pass their checks: a granted OPEN, CLOSE,
BINIT, DERIVE and ADV, each with the state it answers from. -/
inductive StateChange (s : State) : Instr → State → Prop where
  | granted (path : Path) (rest : List OpenAnswer) (hclosed : s.chOpen = false)
      (hanswer : s.openAnswers = .granted :: rest) :
      StateChange s (.openDev path) { s.sendOpen path with openAnswers := rest, chOpen := true, chPath := path }
  | closed (hopen : s.chOpen = true) : StateChange s .closeDev { s.sendClose with chOpen := false }
  | initialised (vd : Byte) (anchor rel : Offset) (haligned : anchor.toNat % s.cfg.bs = 0) :
      StateChange s (.binit vd anchor rel)
        ({ s.arenaClear with abs := anchor }.invalidateViews.setView vd { valid := true, rel := rel })
  | derived (vd vs : Byte) (extra : Offset) :
      StateChange s (.derive vd vs extra) (s.setView vd { valid := true, rel := (s.view vs).rel + extra })
  | advanced (vd : Byte) (delta : Offset) (hfits : (s.view vd).rel.toNat + delta.toNat ≤ maxOffset) :
      StateChange s (.adv vd delta) (s.setView vd { s.view vd with rel := (s.view vd).rel + delta })

/-- All that an operation can come to: a refusal, the bytes of ENC, a primitive sent to the environment, a change of the
state, one of the eight reads, or the answer to the command on the port. -/
inductive ExecCase (s : State) : Instr → Result → Prop where
  | raises (i : Instr) (st : Status) : ExecCase s i (.next (s.raise st))
  | encodes (lba count : Offset) (flag : Byte) (payload : List Byte) :
      ExecCase s (.enc lba count flag) (.next (s.succeed payload))
  | opens (path : Path) (hclosed : s.chOpen = false) :
      ExecCase s (.openDev path) (.next ((s.sendOpen path).awaitOpen path))
  | sends (lba count : Offset) (flag : Byte) (l : Lba) (c : Count) (n : Nat) (hopen : s.chOpen = true) :
      ExecCase s (.rdblk lba count flag)
        (.next ((s.sendCommand (encodeCommand s.cfg.opc l c flag) (n * s.cfg.bs) .blocks).awaitBlocks n))
  | changes (i : Instr) (t : State) (h : StateChange s i t) : ExecCase s i (.next (t.succeed []))
  | reads (i : Instr) (form : ReadForm) (vs : Byte) (offset length : Offset)
      (hread : readOf i = some (vs, offset, length.toNat)) : ExecCase s i (s.read form vs offset length)
  | answers (flag : Byte) (lba : Lba) (count : Count) :
      ExecCase s (.read10 flag lba count) (execRead10 flag lba count s)

theorem execEnc_case (s : State) (lba count : Offset) (flag : Byte) :
    ExecCase s (.enc lba count flag) (execEnc lba count flag s) := by
  unfold execEnc
  split
  · exact .encodes ..
  · exact .raises ..

theorem execOpen_case (s : State) (path : Path) : ExecCase s (.openDev path) (execOpen path s) := by
  unfold execOpen
  split
  · exact .raises ..
  · next hclosed => exact .opens path (by simpa using hclosed)

theorem execClose_case (s : State) : ExecCase s .closeDev (execClose s) := by
  unfold execClose
  split
  · exact .raises ..
  · next hopen => exact .changes _ _ (.closed (by simpa using hopen))

theorem execRdblk_case (s : State) (lba count : Offset) (flag : Byte) :
    ExecCase s (.rdblk lba count flag) (execRdblk lba count flag s) := by
  unfold execRdblk
  split
  · exact .raises ..
  split
  · exact .raises ..
  · next hopen => exact .sends _ _ _ _ _ _ (by simpa using hopen)

theorem execBinit_case (s : State) (vd : Byte) (anchor rel : Offset) :
    ExecCase s (.binit vd anchor rel) (execBinit vd anchor rel s) := by
  unfold execBinit
  split
  · exact .raises ..
  split
  · exact .raises ..
  · next haligned => exact .changes _ _ (.initialised vd anchor rel (not_not.1 haligned))

theorem execDerive_case (s : State) (vd vs : Byte) (extra : Offset) :
    ExecCase s (.derive vd vs extra) (execDerive vd vs extra s) := by
  unfold execDerive
  split
  · exact .raises ..
  split
  · exact .raises ..
  split
  · exact .raises ..
  · exact .changes _ _ (.derived vd vs extra)

theorem execAdv_case (s : State) (vd : Byte) (delta : Offset) :
    ExecCase s (.adv vd delta) (execAdv vd delta s) := by
  unfold execAdv
  split
  · exact .raises ..
  split
  · exact .raises ..
  split
  · exact .raises ..
  · next hfits => exact .changes _ _ (.advanced vd delta (Nat.not_lt.1 hfits))

/-- Every operation is one of these cases. -/
theorem exec_case (i : Instr) (s : State) : ExecCase s i (exec i s) := by
  cases i with
  | enc lba count flag => exact execEnc_case s lba count flag
  | openDev path => exact execOpen_case s path
  | closeDev => exact execClose_case s
  | rdblk lba count flag => exact execRdblk_case s lba count flag
  | binit vd anchor rel => exact execBinit_case s vd anchor rel
  | derive vd vs extra => exact execDerive_case s vd vs extra
  | adv vd delta => exact execAdv_case s vd delta
  | rdb vs offset length => exact .reads _ .bytes vs offset length rfl
  | u8 vs offset => exact .reads _ .u8 vs offset 1 rfl
  | i8 vs offset => exact .reads _ .i8 vs offset 1 rfl
  | u16 vs offset => exact .reads _ .u16 vs offset 2 rfl
  | i16 vs offset => exact .reads _ .i16 vs offset 2 rfl
  | u32 vs offset => exact .reads _ .u32 vs offset 4 rfl
  | i32 vs offset => exact .reads _ .i32 vs offset 4 rfl
  | txt vs offset length => exact .reads _ .text vs offset length rfl
  | read10 flag lba count => exact .answers flag lba count

/-! ### Every step keeps the invariant -/

/-- BINIT leaves an empty arena, which meets the architectural invariants at every aligned anchor. -/
theorem State.ArchInv.initialised {s : State} (h : s.ArchInv) (vd : Byte) {anchor : Offset} (rel : Offset)
    (haligned : anchor.toNat % s.cfg.bs = 0) :
    ({ s.arenaClear with abs := anchor }.invalidateViews.setView vd { valid := true, rel := rel }).ArchInv where
  cfgOk := h.cfgOk
  slots := by simpa using h.slots
  dataOk := Memory.wf_nil
  lengthIsMlen := rfl
  mlenAligned := Nat.zero_mod _
  absAligned := haligned
  withinCap := Nat.zero_le _
  lbasFit h0 := absurd h0 (Nat.lt_irrefl 0)

/-- A change of the channel, the anchor or a view keeps the architectural invariants. -/
theorem StateChange.archInv {s t : State} {i : Instr} (h : StateChange s i t) (hs : s.ArchInv) : t.ArchInv := by
  cases h with
  | granted path rest _ _ => exact hs.congr rfl rfl rfl rfl rfl
  | closed _ => exact hs.congr rfl rfl rfl rfl rfl
  | initialised vd anchor rel haligned => exact hs.initialised vd rel haligned
  | derived vd vs extra => exact hs.congr rfl (by simp) rfl rfl rfl
  | advanced vd delta _ => exact hs.congr rfl (by simp) rfl rfl rfl

/-- A host operation answers a state with the invariant. READ10 is apart: only on the device port has it a meaning. -/
theorem exec_answers {s : State} (h : s.ArchInv) {i : Instr} (hi : ∀ f l c, i ≠ .read10 f l c) :
    AnswersInv (exec i s) := by
  have hc := exec_case i s
  generalize exec i s = r at hc
  cases hc with
  | raises _ st => exact .next (h.raise st)
  | encodes _ _ _ payload => exact .next (h.succeed payload)
  | opens path hclosed =>
    have hsent : (s.sendOpen path).Inv := ⟨h.congr rfl rfl rfl rfl rfl, hclosed⟩
    exact .next (awaitOpen_inv hsent path)
  | sends _ _ flag l c n hopen =>
    have hsent : (s.sendCommand (encodeCommand s.cfg.opc l c flag) (n * s.cfg.bs) .blocks).Inv :=
      ⟨h.congr rfl rfl rfl rfl rfl, hopen, l, c, flag, rfl⟩
    exact .next (awaitBlocks_inv hsent n)
  | changes _ t ht => exact .next ((ht.archInv h).succeed [])
  | reads _ form vs offset length _ => exact read_answers h form vs offset length
  | answers f l c => exact absurd rfl (hi f l c)

/-- Every step from a state with the invariant answers a state with the invariant. -/
theorem step_answers {s : State} (h : s.Inv) : AnswersInv (step s) := by
  cases hp : s.phase with
  | idle =>
    cases hr : s.requests with
    | nil => exact step_noRequest hp hr ▸ .next h
    | cons w rest =>
      cases hd : decode s.cfg.opc (.hreq w) with
      | error e => exact step_reserved hp hr hd ▸ .next ((h.arch.takeRequest rest).raise _)
      | ok i =>
        exact step_request hp hr hd ▸ exec_answers (h.arch.takeRequest rest) (decode_hreq_ne_read10 _ _ _ hd)
  | run r =>
    match r with
    | .opening path => exact step_opening hp ▸ .next (awaitOpen_inv h path)
    | .reading cdb .blocks =>
      obtain ⟨-, lba, count, flag, rfl⟩ := (State.phaseInv_blocks hp).1 h.sequencer
      exact step_blocks hp ▸ .next (awaitBlocks_inv h _)
    | .reading cdb (.extension e) =>
      obtain ⟨ho, rfl, he⟩ := (State.phaseInv_extension hp).1 h.sequencer
      exact step_extension hp ▸ awaitExtension_answers _ h ho he

/-- Settles O12: the step answers a state with the invariant, and that is the state it answers. -/
theorem everyStepKeepsTheInvariant : Obligations.EveryStepKeepsTheInvariant := by
  intro s t h hstep
  obtain ⟨u, hu, hinv⟩ := step_answers h
  obtain rfl : t = u := Host.Outcome.next.inj (hstep.symm.trans hu)
  exact hinv

/-- Settles O13: neither `arenaHole` nor `malformedCommand` occurs under the invariant (logs 10 and 11). -/
theorem noStepFaults : Obligations.NoStepFaults := by
  intro s h
  obtain ⟨t, ht, -⟩ := step_answers h
  exact ⟨t, ht⟩

/-- Settles O6: what is fetched is what runs, in IDLE and on the device port. -/
theorem stepRunsTheDecodedInstruction : Obligations.StepRunsTheDecodedInstruction :=
  ⟨fun _ _ _ _ => step_request, fun _ _ _ _ => step_command⟩

/-- Settles O10: every slot of the table is a copy of the one invalid view. -/
theorem resetState : Obligations.ResetState :=
  ⟨fun _ => ⟨rfl, rfl, rfl, rfl, List.length_replicate, fun _ hv => List.eq_of_mem_replicate hv ▸ rfl, rfl⟩,
    fun _ => archInv_resetOf, Config.thisHardware, rfl, rfl⟩

/-- Settles O11: the sequencer is in IDLE at reset, so the architectural invariants are all there is to it. -/
theorem invariantHoldsAtReset : Obligations.InvariantHoldsAtReset := by
  have hreset (c : Config) (hc : c.wf = true) : (State.resetOf c).Inv := ⟨archInv_resetOf hc, trivial⟩
  exact ⟨hreset Config.thisHardware rfl, hreset⟩

end Sys2Proof.Machine

namespace Sys2Proof.Machine

/-! SUPPORT. What every step leaves: the arena but for BINIT, the channel but for OPEN and CLOSE, the views but for
BINIT, DERIVE and ADV. -/

/-! ### Operations that only let the arena grow -/

/-- The channel, the anchor and the views stay, and the arena's old bytes still stand in front. -/
structure State.OnlyGrows (s t : State) : Prop where
  chOpen : t.chOpen = s.chOpen
  chPath : t.chPath = s.chPath
  abs : t.abs = s.abs
  views : t.views = s.views
  data : s.data <+: t.data

/-- A change of the ports, the outputs or the sequencer alone. -/
theorem State.OnlyGrows.of_eq {s t : State} (hopen : t.chOpen = s.chOpen) (hpath : t.chPath = s.chPath)
    (habs : t.abs = s.abs) (hviews : t.views = s.views) (hdata : t.data = s.data) : s.OnlyGrows t :=
  ⟨hopen, hpath, habs, hviews, hdata ▸ List.prefix_rfl⟩

theorem Memory.prefix_append (m : Memory) (bytes : List Byte) : m <+: m.append bytes :=
  List.prefix_append m _

theorem ExtensionEnd.data_prefix {s t : State} {form : ReadForm} (h : ExtensionEnd s t form) : s.data <+: t.data := by
  cases h with
  | waits hd _ _ _ => exact hd ▸ List.prefix_rfl
  | failed hd _ _ _ => exact hd ▸ List.prefix_rfl
  | done stage _ hd _ _ _ => exact hd ▸ s.data.prefix_append stage

theorem ReadEnd.data_prefix {s t : State} {form : ReadForm} (h : ReadEnd s t form) : s.data <+: t.data := by
  cases h with
  | waits hd _ _ _ => exact hd ▸ List.prefix_rfl
  | failed _ _ hd _ _ _ => exact hd ▸ List.prefix_rfl
  | done stage _ hd _ _ _ => exact hd ▸ s.data.prefix_append stage

theorem State.SameRest.onlyGrows {s t : State} (h : s.SameRest t) (hd : s.data <+: t.data) : s.OnlyGrows t :=
  ⟨h.chOpen, h.chPath, h.abs, h.views, hd⟩

theorem awaitBlocks_onlyGrows (s : State) (count : Nat) : s.OnlyGrows (s.awaitBlocks count) := by
  rcases awaitBlocks_cases s count with ⟨-, hw⟩ | ⟨answer, rest, -, ⟨-, ha⟩ | ⟨-, ha⟩⟩
  · exact hw.symm ▸ .of_eq rfl rfl rfl rfl rfl
  · exact ha.symm ▸ .of_eq rfl rfl rfl rfl rfl
  · exact ha.symm ▸ .of_eq rfl rfl rfl rfl rfl

/-- The answer to a `DevOpen` leaves all this as it is, unless it is `Granted` (41_device_channel R145, R146). -/
theorem awaitOpen_onlyGrows_or (s : State) (path : Path) :
    s.OnlyGrows (s.awaitOpen path) ∨
    ∃ rest, s.openAnswers = .granted :: rest ∧
      s.awaitOpen path = { s with openAnswers := rest, chOpen := true, chPath := path }.succeed [] := by
  rcases awaitOpen_cases s path with ⟨-, hw⟩ | ⟨answer, rest, hrest, ha⟩
  · exact .inl (hw.symm ▸ .of_eq rfl rfl rfl rfl rfl)
  · cases answer with
    | granted => exact .inr ⟨rest, hrest, ha⟩
    | accessDenied => exact .inl (ha.symm ▸ .of_eq rfl rfl rfl rfl rfl)
    | notFound => exact .inl (ha.symm ▸ .of_eq rfl rfl rfl rfl rfl)
    | otherFailure => exact .inl (ha.symm ▸ .of_eq rfl rfl rfl rfl rfl)

theorem execRead10_onlyGrows {s t : State} {flag : Byte} {lba : Lba} {count : Count}
    (h : execRead10 flag lba count s = .next t) : s.OnlyGrows t := by
  unfold execRead10 at h
  split at h
  · split at h
    · split at h
      · cases h
        exact awaitBlocks_onlyGrows s _
      · obtain ⟨hrest, -, hend⟩ := awaitExtension_next _ _ _ _ h
        exact hrest.onlyGrows hend.data_prefix
    · cases h
  · cases h

/-- An operation that answers only lets the arena grow, or makes the one change its name says. -/
theorem exec_onlyGrows_or {s t : State} {i : Instr} (h : exec i s = .next t) :
    s.OnlyGrows t ∨ ∃ u, StateChange s i u ∧ t = u.succeed [] := by
  have hc := exec_case i s
  rw [h] at hc
  generalize hr : (Host.Outcome.next t : Result) = r at hc
  cases hc with
  | raises _ _ => cases hr; exact .inl (.of_eq rfl rfl rfl rfl rfl)
  | encodes _ _ _ _ => cases hr; exact .inl (.of_eq rfl rfl rfl rfl rfl)
  | opens path hclosed =>
    cases hr
    rcases awaitOpen_onlyGrows_or (s.sendOpen path) path with ⟨h1, h2, h3, h4, h5⟩ | ⟨rest, hanswer, ha⟩
    · exact .inl ⟨h1, h2, h3, h4, h5⟩
    · exact .inr ⟨_, .granted path rest hclosed hanswer, ha⟩
  | sends _ _ _ _ _ n _ =>
    cases hr
    obtain ⟨h1, h2, h3, h4, h5⟩ := awaitBlocks_onlyGrows (s.sendCommand _ _ .blocks) n
    exact .inl ⟨h1, h2, h3, h4, h5⟩
  | changes _ u hu => cases hr; exact .inr ⟨u, hu, rfl⟩
  | reads _ form vs offset length _ =>
    obtain ⟨hrest, -, hend⟩ := read_next _ _ _ _ _ _ hr.symm
    exact .inl (hrest.onlyGrows hend.data_prefix)
  | answers _ _ _ => exact .inl (execRead10_onlyGrows hr.symm)

/-- A step that answers only lets the arena grow, or runs an accepted request that makes the one change its name says,
or has the answer `Granted` to a waiting OPEN. -/
theorem step_onlyGrows_or {s t : State} (h : step s = .next t) :
    s.OnlyGrows t ∨
    (∃ w rest i u, s.phase = .idle ∧ s.requests = w :: rest ∧ decode s.cfg.opc (.hreq w) = .ok i ∧
      StateChange { s with requests := rest } i u ∧ t = u.succeed []) ∨
    (∃ path rest, s.phase = .run (.opening path) ∧ s.openAnswers = .granted :: rest ∧
      t = { s with openAnswers := rest, chOpen := true, chPath := path }.succeed []) := by
  rcases step_cases s t h with ⟨-, -, rfl⟩ | ⟨path, hp, rfl⟩ |
    ⟨hp, w, rest, hr, ⟨_, -, rfl⟩ | ⟨i, hd, -, he⟩⟩ | ⟨_, _, _, -, -, ⟨_, _, _, rfl⟩, he⟩
  · exact .inl (.of_eq rfl rfl rfl rfl rfl)
  · rcases awaitOpen_onlyGrows_or s path with hg | ⟨rest, hanswer, ha⟩
    · exact .inl hg
    · exact .inr (.inr ⟨path, rest, hp, hanswer, ha⟩)
  · exact .inl (.of_eq rfl rfl rfl rfl rfl)
  · rcases exec_onlyGrows_or he with ⟨h1, h2, h3, h4, h5⟩ | ⟨u, hu, ht⟩
    · exact .inl ⟨h1, h2, h3, h4, h5⟩
    · exact .inr (.inl ⟨w, rest, i, u, hp, hr, hd, hu, ht⟩)
  · exact .inl (execRead10_onlyGrows he)

/-! ### The arena -/

/-- Only BINIT changes the anchor or drops a byte of the arena. -/
theorem StateChange.arena {s t : State} {i : Instr} (h : StateChange s i t) :
    (∃ vd anchor rel, i = .binit vd anchor rel) ∨ (t.data = s.data ∧ t.abs = s.abs) := by
  cases h with
  | granted _ _ _ _ => exact .inr ⟨rfl, rfl⟩
  | closed _ => exact .inr ⟨rfl, rfl⟩
  | initialised vd anchor rel _ => exact .inl ⟨vd, anchor, rel, rfl⟩
  | derived _ _ _ => exact .inr ⟨rfl, rfl⟩
  | advanced _ _ _ => exact .inr ⟨rfl, rfl⟩

/-- Settles O40: the bytes by the one change each operation makes; `mlen` is their number before and after, by the
invariant the step keeps. -/
theorem arenaIsAppendOnly : Obligations.ArenaIsAppendOnly := by
  intro s t h hstep
  have ht := everyStepKeepsTheInvariant s t h hstep
  have append_only (hd : s.data <+: t.data) (ha : t.abs = s.abs) :
      s.data <+: t.data ∧ t.abs = s.abs ∧ s.mlen.toNat ≤ t.mlen.toNat :=
    ⟨hd, ha, h.arch.lengthIsMlen ▸ ht.arch.lengthIsMlen ▸ hd.length_le⟩
  rcases step_onlyGrows_or hstep with hg | ⟨w, rest, i, u, hp, hr, hd, hu, rfl⟩ | ⟨_, _, -, -, rfl⟩
  · exact .inr (append_only hg.data hg.abs)
  · rcases hu.arena with ⟨vd, anchor, rel, rfl⟩ | ⟨hdata, habs⟩
    · exact .inl ⟨w, rest, vd, anchor, rel, hp, hr, hd⟩
    · exact .inr (append_only (hdata ▸ List.prefix_rfl) habs)
  · exact .inr (append_only List.prefix_rfl rfl)

/-! ### The channel -/

/-- Settles O41: by the one change each step may make, read at `ch_open` and `ch_path`. -/
theorem onlyOpenAndCloseChangeTheChannel : Obligations.OnlyOpenAndCloseChangeTheChannel := by
  intro s t hstep
  rcases step_onlyGrows_or hstep with hg | ⟨w, rest, i, u, hp, hr, hd, hu, rfl⟩ | ⟨path, rest, hp, hanswer, rfl⟩
  · exact .inl ⟨hg.chOpen, hg.chPath⟩
  · cases hu with
    | granted path answers hclosed hanswer =>
      exact .inr (.inl ⟨rfl, hanswer, .inr ⟨hp, hclosed, w, rest, hr, hd⟩⟩)
    | closed hopen => exact .inr (.inr ⟨rfl, rfl, hp, hopen, w, rest, hr, hd⟩)
    | initialised _ _ _ _ => exact .inl ⟨rfl, rfl⟩
    | derived _ _ _ => exact .inl ⟨rfl, rfl⟩
    | advanced _ _ _ => exact .inl ⟨rfl, rfl⟩
  · exact .inr (.inl ⟨rfl, hanswer, .inl ⟨hp, fun hinv => (State.phaseInv_opening hp).1 hinv.sequencer⟩⟩)

/-! ### The views -/

/-- What becomes of the view in slot `j` under an operation that is no BINIT: it stays valid, moves forward unless a
DERIVE overwrites it, and stays as it is unless DERIVE or ADV names its slot (10_state R40, R43). -/
def ViewMovesForward (i : Instr) (j : Nat) (v v' : View) : Prop :=
  v'.valid = true ∧
    ((∀ vd vs extra, i = .derive vd vs extra → vd.toNat ≠ j) → v.rel.toNat ≤ v'.rel.toNat) ∧
    ((∀ vd vs extra, i = .derive vd vs extra → vd.toNat ≠ j) →
      (∀ vd delta, i = .adv vd delta → vd.toNat ≠ j) → v' = v)

theorem ViewMovesForward.refl (i : Instr) (j : Nat) {v : View} (h : v.valid = true) : ViewMovesForward i j v v :=
  ⟨h, fun _ => le_rfl, fun _ _ => rfl⟩

/-- A DERIVE moves its own slot anywhere. -/
theorem ViewMovesForward.derive (vd vs : Byte) (extra rel : Offset) (v : View) :
    ViewMovesForward (.derive vd vs extra) vd.toNat v { valid := true, rel := rel } :=
  ⟨rfl, fun h => absurd rfl (h _ _ _ rfl), fun h => absurd rfl (h _ _ _ rfl)⟩

/-- An ADV moves its own slot forward, its sum fitting 64 bits (42_block_buffer R179). -/
theorem ViewMovesForward.adv (vd : Byte) (delta : Offset) {v : View} (h : v.valid = true)
    (hfits : v.rel.toNat + delta.toNat ≤ maxOffset) :
    ViewMovesForward (.adv vd delta) vd.toNat v { v with rel := v.rel + delta } := by
  refine ⟨h, fun _ => ?_, fun _ hadv => absurd rfl (hadv _ _ rfl)⟩
  unfold maxOffset at hfits
  rw [BitVec.toNat_add_of_lt (by omega)]
  exact Nat.le_add_right _ _

/-- The whole table under an operation that is no BINIT: its size, and each slot that holds a view. -/
def ViewsMoveForward (i : Instr) (s t : State) : Prop :=
  t.views.length = s.views.length ∧
    ∀ j v, s.views[j]? = some v → v.valid = true → ∃ v', t.views[j]? = some v' ∧ ViewMovesForward i j v v'

theorem ViewsMoveForward.of_eq {i : Instr} {s t : State} (h : t.views = s.views) : ViewsMoveForward i s t :=
  ⟨h ▸ rfl, fun j v hv hval => ⟨v, h ▸ hv, .refl i j hval⟩⟩

/-- Where one slot is written, only that slot has to be looked at. -/
theorem ViewsMoveForward.setView {i : Instr} {s : State} {vd : Byte} {x : View}
    (h : ∀ v, s.views[vd.toNat]? = some v → v.valid = true → ViewMovesForward i vd.toNat v x) :
    ViewsMoveForward i s (s.setView vd x) := by
  refine ⟨List.length_set, fun j v hv hval => ?_⟩
  have hj : j < s.views.length := (List.getElem?_eq_some_iff.1 hv).1
  by_cases hne : vd.toNat = j
  · subst hne
    exact ⟨x, by simp [hj], h v hv hval⟩
  · exact ⟨v, by simp [hne, hv], .refl i j hval⟩

/-- A change of the state other than BINIT's moves views forward only. -/
theorem StateChange.viewsMoveForward {s t : State} {i : Instr} (h : StateChange s i t)
    (hbinit : ∀ vd anchor rel, i ≠ .binit vd anchor rel) : ViewsMoveForward i s t := by
  cases h with
  | granted _ _ _ _ => exact .of_eq rfl
  | closed _ => exact .of_eq rfl
  | initialised vd anchor rel _ => exact absurd rfl (hbinit vd anchor rel)
  | derived vd vs extra => exact .setView fun v _ _ => .derive vd vs extra _ v
  | advanced vd delta hfits =>
    refine .setView fun v hv hval => ?_
    rw [s.view_of_slot vd v hv] at hfits ⊢
    exact .adv vd delta hval hfits

/-- Settles O42: an operation leaves the table, or makes the one change its name says. -/
theorem viewsOnlyMoveForward : Obligations.ViewsOnlyMoveForward := by
  intro i s t hexec hbinit
  rcases exec_onlyGrows_or hexec with hg | ⟨u, hu, rfl⟩
  · exact ViewsMoveForward.of_eq hg.views
  · exact hu.viewsMoveForward hbinit

end Sys2Proof.Machine

namespace Sys2Proof.Machine

/-! SUPPORT. An extension that gets every block, and the arena as a mirror of a disk image. -/

/-! ### The bytes a read answers -/

theorem State.slice_length {s : State} {start len : Nat} (h : start + len ≤ s.data.length) :
    (s.slice start len).length = len := by
  simp only [State.slice, List.length_take, List.length_drop, List.length_map]
  omega

/-- Byte `k` of a slice is the arena's byte at that index (42_block_buffer R191). -/
theorem State.slice_getElem? {s : State} (hwf : s.data.wf = true) {start len k : Nat} (hk : k < len) :
    (s.slice start len)[k]? = s.data.read (start + k) := by
  rw [State.slice, List.getElem?_take_of_lt hk, List.getElem?_drop, Memory.read_eq_getElem _ hwf]

/-! ### A read whose bytes are present, and one that gets every block -/

/-- A read of present bytes answers their slice and changes nothing else (42_block_buffer R191). -/
theorem exec_present {s : State} {i : Instr} {start len : Nat} (hs : s.ArchInv) (hra : s.readsAt i start len)
    (hp : start + len ≤ s.mlen.toNat) :
    ∃ r, readAnswer s.cfg.recordOrder i (s.slice start len) = some r ∧ exec i s = .next (s.respond r) := by
  obtain ⟨form, hform, hexec⟩ := exec_of_readsAt s i start len hra
  have hlen : start + len ≤ s.data.length := hs.lengthIsMlen ▸ hp
  exact ⟨_, hform _ _ (State.slice_length hlen),
    hexec.trans ((if_neg (Nat.not_lt.2 hp)).trans (finishRead_present s form start len hs.dataOk hlen))⟩

/-- The state after `n` blocks from block `base` on have been fetched, one command each, and committed
(42_block_buffer R188, R190). -/
def State.committed (s : State) (base n : Nat) (answers rest : List CmdAnswer) : State :=
  { s with
    data := s.data.append (stagedBytes answers)
    mlen := BitVec.ofNat 64 (s.mlen.toNat + n * s.cfg.bs)
    trace := s.trace ++ extensionCommands s.cfg s.chPath base n
    cmdAnswers := rest }

theorem State.committed_length {s : State} {base n : Nat} {answers rest : List CmdAnswer} (hs : s.ArchInv)
    (hn : answers.length = n) (hb : ∀ a ∈ answers, a.isBlock s.cfg.bs) :
    (s.committed base n answers rest).data.length = s.mlen.toNat + n * s.cfg.bs := by
  rw [State.committed, Memory.append_length, stagedBytes_length answers _ hb, hn, hs.lengthIsMlen]

theorem State.committed_mlen {s : State} {n : Nat} (h : s.hasRoom n) (base : Nat) (answers rest : List CmdAnswer) :
    (s.committed base n answers rest).mlen.toNat = s.mlen.toNat + n * s.cfg.bs := by
  obtain ⟨hfits, -⟩ := h
  rw [State.committed, BitVec.toNat_ofNat, Nat.mod_eq_of_lt (by omega)]

theorem stagedBytes_concat (answers : List CmdAnswer) (a : CmdAnswer) :
    stagedBytes (answers ++ [a]) = stagedBytes answers ++ a.bytes := by
  simp [stagedBytes]

/-- The extension loop from its first command on, where the answers are `init` and then a last block `a`. -/
theorem awaitExtension_fresh_commits {s : State} {form : ReadForm} {start len n base : Nat} {init rest : List CmdAnswer}
    {a : CmdAnswer} (hs : s.ArchInv) (htape : s.cmdAnswers = init ++ a :: rest) (hn : init.length + 1 = n)
    (hb : ∀ x ∈ init, x.isBlock s.cfg.bs) (ha : a.isBlock s.cfg.bs)
    (hfit : start + len ≤ s.mlen.toNat + n * s.cfg.bs) :
    State.awaitExtension s.cmdAnswers (Extension.fresh form start len n base)
        (s.sendExtension (Extension.fresh form start len n base)) =
      .next ((s.committed base n (init ++ [a]) rest).respond
        (form.response s.cfg.recordOrder ((s.committed base n (init ++ [a]) rest).slice start len))) := by
  have hbefore : 0 + init.length < n := by omega
  have hstage : ([] ++ stagedBytes init ++ a.bytes).length = n * s.cfg.bs := by
    rw [List.nil_append, List.length_append, stagedBytes_length init _ hb, ha.2, ← hn, Nat.succ_mul]
  rw [htape, awaitExtension_skip init (a :: rest) _ (s.sendExtension _) htape rfl hb hbefore, sendExtension_extended]
  refine (awaitExtension_commits _ a rest _ ?_ ?_ ?_ ?_ ?_).trans ?_
  · exact hs.congr rfl rfl rfl rfl rfl
  · exact hstage
  · exact ha
  · simpa [Extension.takeAll, Extension.fresh] using hn
  · exact hfit
  · simp only [State.committed, stagedBytes_concat, ← hn]
    rfl

/-- A read that gets every block it needs commits them and answers from the grown arena (42_block_buffer R188 to
R191). -/
theorem exec_commits {s : State} {i : Instr} {start len n base : Nat} {answers rest : List CmdAnswer} (hs : s.ArchInv)
    (hra : s.readsAt i start len) (hl : s.lacks (start + len) n base) (hroom : s.hasRoom n)
    (hlba : base + n - 1 ≤ 2 ^ 32 - 1) (ho : s.chOpen = true) (htape : s.cmdAnswers = answers ++ rest)
    (hn : answers.length = n) (hb : ∀ a ∈ answers, a.isBlock s.cfg.bs) :
    ∃ r, readAnswer s.cfg.recordOrder i ((s.committed base n answers rest).slice start len) = some r ∧
      exec i s = .next ((s.committed base n answers rest).respond r) := by
  obtain ⟨form, hform, hexec⟩ := exec_extends s i start len n base hra hl hroom hlba ho
  have hcovers := s.lacks_covers _ _ _ hs.bs_pos hl
  have hlen := State.committed_length (base := base) (rest := rest) hs hn hb
  refine ⟨_, hform _ _ (State.slice_length (hcovers.trans_eq hlen.symm)), ?_⟩
  rw [hexec]
  rcases List.eq_nil_or_concat' answers with rfl | ⟨init, a, rfl⟩
  · exact absurd (hn.trans hl.2.1) (Nat.succ_ne_zero _).symm
  · exact awaitExtension_fresh_commits hs (by simpa using htape) (by simpa using hn)
      (fun x hx => hb x (by simp [hx])) (hb a (by simp)) hcovers

/-! ### A disk image -/

/-- Blocks of one size in a row: byte `k` is byte `k % bs` of block `k / bs`. -/
theorem getElem?_flatMap_blocks (block : Nat → List Byte) {bs : Nat} (hbs : 0 < bs)
    (hsize : ∀ b, (block b).length = bs) {n k : Nat} (hk : k < n * bs) :
    ((List.range n).flatMap block)[k]? = (block (k / bs))[k % bs]? := by
  induction n with
  | zero => omega
  | succ n ih =>
    have hlen : ((List.range n).flatMap block).length = n * bs := by simp [List.length_flatMap, hsize]
    rw [List.range_succ, List.flatMap_append, List.flatMap_singleton]
    by_cases hold : k < n * bs
    · rw [List.getElem?_append_left (hlen ▸ hold), ih hold]
    · have hdiv : k / bs = n := by
        rw [Nat.div_eq_iff hbs]
        rw [Nat.succ_mul] at hk
        omega
      rw [List.getElem?_append_right (hlen ▸ Nat.not_lt.1 hold), hlen, hdiv, Nat.mod_eq_sub_mul_div, hdiv,
        Nat.mul_comm]

/-- The image's answers to the commands of an extension, as the oracle gives them (41_device_channel R144). -/
def imageAnswers (disk : Nat → List Byte) (nblk base n : Nat) : List CmdAnswer :=
  (List.range n).map fun j => imageAnswer disk nblk (base + j) 1

/-- Within the image each of them is the block asked for. -/
theorem imageAnswers_eq {disk : Nat → List Byte} {nblk base n : Nat} (h : base + n ≤ nblk) :
    imageAnswers disk nblk base n = (List.range n).map fun j => { ok := true, bytes := disk (base + j) } := by
  refine List.map_congr_left fun j hj => ?_
  have hin : base + j + 1 ≤ nblk := by have := List.mem_range.1 hj; omega
  simp [imageAnswer, hin]

theorem imageAnswers_isBlock {disk : Nat → List Byte} {nblk base n bs : Nat} (h : base + n ≤ nblk)
    (hsize : ∀ b, (disk b).length = bs) : ∀ a ∈ imageAnswers disk nblk base n, a.isBlock bs := by
  rw [imageAnswers_eq h]
  intro a ha
  obtain ⟨j, -, rfl⟩ := List.mem_map.1 ha
  exact ⟨rfl, hsize _⟩

/-- The bytes they stage are the image's, from block `base` on. -/
theorem stagedBytes_imageAnswers {disk : Nat → List Byte} {nblk base n bs k : Nat} (h : base + n ≤ nblk)
    (hbs : 0 < bs) (hsize : ∀ b, (disk b).length = bs) (hk : k < n * bs) :
    (stagedBytes (imageAnswers disk nblk base n))[k]? = diskByte disk bs (base * bs + k) := by
  rw [imageAnswers_eq h, stagedBytes, List.flatMap_map,
    getElem?_flatMap_blocks (fun j => disk (base + j)) hbs (fun b => hsize _) hk, diskByte, Nat.mul_comm base bs,
    Nat.mul_add_div hbs, Nat.mul_add_mod]

/-- The arena still mirrors the image after it has grown by the image's blocks (42_block_buffer R187: the first block
fetched is the one that follows the arena). -/
theorem mirrors_committed {s : State} {disk : Nat → List Byte} {nblk base n : Nat} (rest : List CmdAnswer)
    (hs : s.ArchInv) (hmir : s.mirrors disk) (hsize : ∀ b, (disk b).length = s.cfg.bs)
    (hbase : base = (s.abs.toNat + s.mlen.toNat) / s.cfg.bs) (hroom : s.hasRoom n) (hin : base + n ≤ nblk) :
    (s.committed base n (imageAnswers disk nblk base n) rest).mirrors disk := by
  have hl := hs.lengthIsMlen
  intro k hk
  rw [State.committed_mlen hroom] at hk
  by_cases hold : k < s.mlen.toNat
  · exact (Memory.read_append_old s.data _ hs.dataOk k (hl ▸ hold)).trans (hmir k hold)
  · obtain ⟨j, rfl⟩ := Nat.exists_eq_add_of_le (Nat.not_lt.1 hold)
    have haligned : s.abs.toNat + s.mlen.toNat = base * s.cfg.bs := by
      rw [hbase, Nat.div_mul_cancel]
      exact Nat.dvd_add (Nat.dvd_of_mod_eq_zero hs.absAligned) (Nat.dvd_of_mod_eq_zero hs.mlenAligned)
    have hnew := Memory.read_append_new s.data (stagedBytes (imageAnswers disk nblk base n)) hs.dataOk j
    rw [hl, stagedBytes_imageAnswers hin hs.bs_pos hsize (by omega), ← haligned, Nat.add_assoc] at hnew
    exact hnew

/-- A slice of present bytes of a mirroring arena is the image's bytes (20_memory R64). -/
theorem slice_of_mirrors {s : State} {disk : Nat → List Byte} (hs : s.ArchInv) (hmir : s.mirrors disk)
    {start len : Nat} (hp : start + len ≤ s.mlen.toNat) :
    (s.slice start len).length = len ∧
      ∀ k, k < len → (s.slice start len)[k]? = diskByte disk s.cfg.bs (s.abs.toNat + start + k) := by
  refine ⟨State.slice_length (hs.lengthIsMlen ▸ hp), fun k hk => ?_⟩
  rw [State.slice_getElem? hs.dataOk hk, hmir (start + k) (by omega), Nat.add_assoc]

/-- A read is no READ10. -/
theorem ne_read10_of_readsAt {s : State} {i : Instr} {start len : Nat} (h : s.readsAt i start len) (f : Byte) (l : Lba)
    (c : Count) : i ≠ .read10 f l c := by
  rintro rfl
  obtain ⟨_, _, _, hread, -⟩ := h
  cases hread

/-- Settles O34: present or fetched from the image, the bytes are a slice of an arena `u` that mirrors the image; the
invariants are those every operation keeps. -/
theorem readsMirrorTheDisk : Obligations.ReadsMirrorTheDisk := by
  intro s disk nblk i start len hs hmir hsize hra hcase
  obtain ⟨u, r, hcfg, habs, hresp, hp, hmiru, hans, hexec⟩ :
      ∃ (u : State) (r : Response), u.cfg = s.cfg ∧ u.abs = s.abs ∧ u.responses = s.responses ∧
        start + len ≤ u.mlen.toNat ∧ u.mirrors disk ∧
        readAnswer s.cfg.recordOrder i (u.slice start len) = some r ∧ exec i s = .next (u.respond r) := by
    rcases hcase with hp | ⟨n, base, rest, hl, hroom, hlba, hin, ho, htape⟩
    · obtain ⟨r, hans, hexec⟩ := exec_present hs hra hp
      exact ⟨s, r, rfl, rfl, rfl, hp, hmir, hans, hexec⟩
    · have hcount : (imageAnswers disk nblk base n).length = n := by simp [imageAnswers]
      obtain ⟨r, hans, hexec⟩ :=
        exec_commits hs hra hl hroom hlba ho htape hcount (imageAnswers_isBlock hin hsize)
      refine ⟨s.committed base n (imageAnswers disk nblk base n) rest, r, rfl, rfl, rfl, ?_,
        mirrors_committed rest hs hmir hsize hl.2.2 hroom hin, hans, hexec⟩
      exact (s.lacks_covers _ _ _ hs.bs_pos hl).trans_eq (State.committed_mlen hroom base _ rest).symm
  obtain ⟨t, ht, hinv⟩ := exec_answers hs (ne_read10_of_readsAt hra)
  obtain rfl : u.respond r = t := Host.Outcome.next.inj (hexec.symm.trans ht)
  have hu : u.ArchInv := hinv.arch.congr rfl rfl rfl rfl rfl
  obtain ⟨hlen, hbytes⟩ := slice_of_mirrors hu hmiru hp
  exact ⟨_, _, r, ht, hmiru, hinv.arch, rfl, hresp ▸ rfl, hans, hlen, hcfg ▸ habs ▸ hbytes⟩

end Sys2Proof.Machine

namespace Sys2Proof.Machine

/-! ### Mixed widths at one offset (20_memory R70) -/

/-- A field of at most 32 bits whose bytes spell a number it can hold reads as that number. -/
theorem unsignedField_toNat {n : Nat} {o : RecordOrder} {bytes : List Byte} (hn : n ≤ 32)
    (h : recValue o bytes < 2 ^ n) : (unsignedField n o bytes).toNat = recValue o bytes := by
  rw [unsignedField, BitVec.toNat_setWidth_of_le hn, BitVec.toNat_ofNat, Nat.mod_eq_of_lt h]

theorem unsignedField_8_toNat (o : RecordOrder) (b0 : Byte) : (unsignedField 8 o [b0]).toNat = b0.toNat := by
  have hval := recValue_one o b0
  rw [unsignedField_toNat (by omega) (hval ▸ b0.isLt), hval]

theorem unsignedField_16_toNat (o : RecordOrder) (b0 b1 : Byte) :
    (unsignedField 16 o [b0, b1]).toNat = reading16 o b0 b1 := by
  have hval := recValue_two o b0 b1
  rw [unsignedField_toNat (by omega) (hval ▸ reading16_lt o b0 b1), hval]

theorem unsignedField_32_toNat (o : RecordOrder) (b0 b1 b2 b3 : Byte) :
    (unsignedField 32 o [b0, b1, b2, b3]).toNat = reading32 o b0 b1 b2 b3 := by
  have hval := recValue_four o b0 b1 b2 b3
  rw [unsignedField_toNat le_rfl (hval ▸ reading32_lt o b0 b1 b2 b3), hval]

/-- Least significant byte first, the first half is the low one. -/
theorem reading32_le (b0 b1 b2 b3 : Byte) :
    reading32 .le b0 b1 b2 b3 = reading16 .le b0 b1 + 65536 * reading16 .le b2 b3 := by
  simp only [reading32, reading16]
  omega

/-- Most significant byte first, the first half is the high one. -/
theorem reading32_be (b0 b1 b2 b3 : Byte) :
    reading32 .be b0 b1 b2 b3 = 65536 * reading16 .be b0 b1 + reading16 .be b2 b3 := by
  simp only [reading32, reading16]
  omega

/-- Settles O35: each field reads as the number its bytes spell, and a 32-bit reading is its two halves. -/
theorem mixedWidthsAgree : Obligations.MixedWidthsAgree := by
  intro b0 b1 b2 b3
  refine ⟨unsignedField_8_toNat .le b0, unsignedField_8_toNat .be b0, unsignedField_16_toNat .le b0 b1,
    unsignedField_16_toNat .be b0 b1, ?_, ?_⟩
  · simp only [unsignedField_16_toNat, unsignedField_32_toNat, reading32_le]
  · simp only [unsignedField_16_toNat, unsignedField_32_toNat, reading32_be]

end Sys2Proof.Machine

namespace Sys2Proof

open Machine

/-! SUPPORT. The encodings: what a packed request decodes to, the listed op codes, the fields an operation reads,
and the command's layout. -/

/-! ### Packed requests -/

/-- A packed request decodes as its fields do (30_encoding R97). -/
theorem decode_ofFields (opc op vd vs flag : Byte) (a b : Offset) :
    decode opc (Hreq.ofFields op vd vs flag a b) = Hreq.decode ⟨op, vd, vs, flag, a, b⟩ :=
  congrArg Hreq.decode (Hreq.unpack_pack _)

/-- The fields of a packed request are those it was built from. -/
theorem unpack_of_ofFields {op vd vs flag : Byte} {a b : Offset} {w : BitVec 160}
    (h : Hreq.ofFields op vd vs flag a b = .hreq w) : Hreq.unpack w = ⟨op, vd, vs, flag, a, b⟩ :=
  InstrWord.hreq.inj h ▸ Hreq.unpack_pack _

/-- Settles O1: a host request by the row of the operation map its op code names, READ10 by the command's layout. -/
theorem decodeInvertsEncode : Obligations.DecodeInvertsEncode := by
  intro opc i
  cases i with
  | read10 flag lba count => exact decodeCommand_encodeCommand opc lba count flag
  | _ => exact decode_ofFields ..

/-! ### Listed op codes, and the fields an operation reads -/

/-- An op code is reserved exactly in the ranges of 30_encoding R101. -/
theorem definedOp_false_iff (op : Byte) : definedOp op = false ↔
    op.toNat = 0x00 ∨ (0x05 ≤ op.toNat ∧ op.toNat ≤ 0x07) ∨ (0x0C ≤ op.toNat ∧ op.toNat ≤ 0x0F) ∨
      op.toNat = 0x16 ∨ op.toNat = 0x17 ∨ 0x19 ≤ op.toNat := by
  simp only [definedOp, List.mem_cons, List.not_mem_nil, or_false, ← BitVec.toNat_inj, decide_eq_false_iff_not,
    BitVec.ofNat_eq_ofNat, BitVec.toNat_ofNat]
  omega

namespace Hreq

/-- The request with every field that its operation does not use driven to zero (30_encoding R99). -/
def zeroUnused (h : Hreq) : Hreq :=
  { op := h.op
    vd := if usesVd h.op then h.vd else 0
    vs := if usesVs h.op then h.vs else 0
    flag := if usesFlag h.op then h.flag else 0
    a := if usesA h.op then h.a else 0
    b := if usesB h.op then h.b else 0 }

/-- Two requests are the same up to unused fields when they agree in the op code and in the used fields. -/
theorem zeroUnused_congr {h h' : Hreq} (hop : h.op = h'.op) (hvd : usesVd h.op = true → h.vd = h'.vd)
    (hvs : usesVs h.op = true → h.vs = h'.vs) (hflag : usesFlag h.op = true → h.flag = h'.flag)
    (ha : usesA h.op = true → h.a = h'.a) (hb : usesB h.op = true → h.b = h'.b) : h.zeroUnused = h'.zeroUnused := by
  simp only [zeroUnused, ← hop, mk.injEq, true_and]
  exact ⟨ite_congr rfl hvd fun _ => rfl, ite_congr rfl hvs fun _ => rfl, ite_congr rfl hflag fun _ => rfl,
    ite_congr rfl ha fun _ => rfl, ite_congr rfl hb fun _ => rfl⟩

/-- A request is its own form with unused fields at zero exactly when they are zero. -/
theorem zeroUnused_eq_self_iff (h : Hreq) : h.zeroUnused = h ↔
    (usesVd h.op = false → h.vd = 0) ∧ (usesVs h.op = false → h.vs = 0) ∧ (usesFlag h.op = false → h.flag = 0) ∧
      (usesA h.op = false → h.a = 0) ∧ (usesB h.op = false → h.b = 0) := by
  obtain ⟨op, vd, vs, flag, a, b⟩ := h
  simp [zeroUnused, eq_comm (a := 0#8), eq_comm (a := 0#64)]

/-- A listed op code spells an operation, and it is read from the used fields alone (30_encoding R99, R100). -/
theorem decode_of_definedOp {h : Hreq} (hop : definedOp h.op = true) :
    ∃ i, h.decode = .ok i ∧ h.zeroUnused.decode = .ok i := by
  obtain ⟨op, vd, vs, flag, a, b⟩ := h
  simp only [definedOp, List.mem_cons, List.not_mem_nil, or_false, decide_eq_true_eq] at hop
  rcases hop with rfl | rfl | rfl | rfl | rfl | rfl | rfl | rfl | rfl | rfl | rfl | rfl | rfl | rfl | rfl <;>
    exact ⟨_, rfl, rfl⟩

/-- A reserved op code spells no operation (30_encoding R101). -/
theorem decode_of_reserved {h : Hreq} (hop : definedOp h.op = false) : h.decode = .error (.reservedOp h.op) := by
  rw [definedOp_false_iff] at hop
  unfold decode
  split
  case h_16 => rfl
  all_goals omega

/-- A request spells no operation exactly when its op code is reserved (30_encoding R101). -/
theorem decode_eq_error_iff (h : Hreq) : (∃ e, h.decode = .error e) ↔ definedOp h.op = false := by
  refine ⟨fun ⟨e, he⟩ => Bool.eq_false_iff.2 fun hop => ?_, fun hop => ⟨_, decode_of_reserved hop⟩⟩
  obtain ⟨i, hi, -⟩ := decode_of_definedOp hop
  cases hi.symm.trans he

end Hreq

/-- The encoder drives every unused field to zero (30_encoding R99). -/
theorem zeroUnused_of_encode {opc : Byte} {i : Instr} {w : BitVec 160} (h : encode opc i = .hreq w) :
    (Hreq.unpack w).zeroUnused = Hreq.unpack w := by
  cases i with
  | read10 flag lba count => cases h
  | _ => rw [unpack_of_ofFields h]; rfl

/-- Settles O2: both requests decode as their common form with unused fields at zero, and the encoder gives that
form. -/
theorem ignoredFieldsHaveNoEffect : Obligations.IgnoredFieldsHaveNoEffect := by
  constructor
  · intro opc w w' h h' hdef hop hvd hvs hflag ha hb
    obtain ⟨i, hi, hz⟩ := Hreq.decode_of_definedOp hdef
    obtain ⟨i', hi', hz'⟩ := Hreq.decode_of_definedOp (hop ▸ hdef)
    rw [Hreq.zeroUnused_congr hop hvd hvs hflag ha hb, hz'] at hz
    cases hz
    exact ⟨i, hi, hi'⟩
  · intro opc i w henc
    exact (Hreq.zeroUnused_eq_self_iff _).1 (zeroUnused_of_encode henc)

/-- Settles O3: a request fails to decode by its op code alone, and the step refuses it; op 0 is the first reserved
one. -/
theorem reservedOpsAreIllegalRequests : Obligations.ReservedOpsAreIllegalRequests := by
  have hreserved (opc : Byte) (w : BitVec 160) :=
    (Hreq.decode_eq_error_iff (Hreq.unpack w)).trans (definedOp_false_iff _)
  exact ⟨hreserved, fun _ _ _ _ => step_reserved, fun opc => (hreserved opc 0).2 (.inl rfl)⟩

/-! ### The command's layout -/

/-- Four bytes read big-endian are their concatenation (00_scope R22). -/
theorem beValue_four (b0 b1 b2 b3 : Byte) : beValue [b0, b1, b2, b3] = (b0 ++ b1 ++ b2 ++ b3).toNat := by
  simp only [beValue, List.foldl, toNat_append_eq]
  omega

/-- Two bytes read big-endian are their concatenation (00_scope R22). -/
theorem beValue_two (b0 b1 : Byte) : beValue [b0, b1] = (b0 ++ b1).toNat := by
  simp only [beValue, List.foldl, toNat_append_eq]
  omega

/-- The command keeps all three arguments of `Encode` (30_encoding R93). -/
theorem encodeCommand_inj {opc : Byte} {lba lba' : Lba} {count count' : Count} {flag flag' : Byte}
    (h : encodeCommand opc lba' count' flag' = encodeCommand opc lba count flag) :
    lba' = lba ∧ count' = count ∧ flag' = flag := by
  have hdec := congrArg (decodeCommand opc) h
  simp only [decodeCommand_encodeCommand, Except.ok.injEq, Instr.read10.injEq] at hdec
  obtain ⟨hflag, hlba, hcount⟩ := hdec
  exact ⟨hlba, hcount, hflag⟩

/-- Settles O5: the address and count bytes put together again, and injectivity by decoding. -/
theorem commandRoundTrip : Obligations.CommandRoundTrip := by
  intro opc lba count flag
  have hlba : beValue ((encodeCommand opc lba count flag).drop 2 |>.take 4) = lba.toNat :=
    (beValue_four ..).trans (congrArg BitVec.toNat (lba_bytes lba))
  have hcount : beValue ((encodeCommand opc lba count flag).drop 7 |>.take 2) = count.toNat :=
    (beValue_two ..).trans (congrArg BitVec.toNat (count_bytes count))
  exact ⟨rfl, hlba, hcount, rfl, rfl, rfl, rfl, fun _ _ _ => encodeCommand_inj⟩

/-- Settles O4: nine requests by evaluation, and READ10 for every `OPC` as the encoded command it is. -/
theorem specWordsDecode : Obligations.SpecWordsDecode :=
  ⟨rfl, rfl, rfl, rfl, rfl, rfl, rfl, rfl, rfl, fun opc => decodeCommand_encodeCommand opc 3 2 0x10⟩

end Sys2Proof

namespace Sys2Proof.Machine

/-! SUPPORT. What an operation answers and what it sends. -/

/-! ### A used view index out of range -/

/-- A read checks its view index first (60_exceptions R248). -/
theorem read_illegal {s : State} {form : ReadForm} {vs : Byte} {offset length : Offset}
    (h : viewIndexOk s.cfg vs = false) : s.read form vs offset length = .next (s.raise .illegalRequest) := by
  simp only [State.read, State.viewInRange, h, Bool.not_false, if_true]

/-- An operation with a used view index out of range is refused before any other check (30_encoding R102). -/
theorem exec_of_not_wf {i : Instr} {s : State} (h : i.wf s.cfg = false) :
    exec i s = .next (s.raise .illegalRequest) := by
  cases i with
  | enc | openDev | closeDev | rdblk | read10 => cases h
  | binit vd anchor rel => exact if_pos (congrArg not h)
  | derive vd vs extra => exact if_pos (congrArg not h)
  | adv vd delta => exact if_pos (congrArg not h)
  | rdb | u8 | i8 | u16 | i16 | u32 | i32 | txt => exact read_illegal h

/-- Settles O43: the accepted request is run and refused. -/
theorem illFormedRequestsAreIllegal : Obligations.IllFormedRequestsAreIllegal :=
  fun _ _ _ _ hp hr hd hwf => (step_request hp hr hd).trans (exec_of_not_wf hwf)

/-! ### The command on the device port -/

/-- READ10 answers only where its command stands on the port, as the RDBLK or the extension that waits there. -/
theorem execRead10_next {s t : State} {flag : Byte} {lba : Lba} {count : Count}
    (h : execRead10 flag lba count s = .next t) :
    (∃ w, s.phase = .run w) ∧
      (t = s.awaitBlocks count.toNat ∨ ∃ e, State.awaitExtension s.cmdAnswers e s = .next t) := by
  unfold execRead10 at h
  split at h
  next cdb k hp =>
    split at h
    · cases k with
      | blocks => cases h; exact ⟨⟨_, hp⟩, .inl rfl⟩
      | extension e => exact ⟨⟨_, hp⟩, .inr ⟨e, h⟩⟩
    · cases h
  next => cases h

/-! ### One response, or none yet -/

/-- One response and IDLE, a failure with no value and no payload; or no response and RUN (30_encoding R104). -/
def State.AnswersOrWaits (s t : State) : Prop :=
  (∃ r, t.responses = s.responses ++ [r] ∧ t.phase = .idle ∧ (r.status ≠ .ok → r.val = none ∧ r.payload = [])) ∨
    (t.responses = s.responses ∧ ∃ w, t.phase = .run w)

namespace State.AnswersOrWaits

variable {s t : State}

/-- An operation that fails. -/
theorem failed {st : Status} (hr : t.responses = s.responses ++ [failure st]) (hp : t.phase = .idle) :
    s.AnswersOrWaits t :=
  .inl ⟨_, hr, hp, fun _ => ⟨rfl, rfl⟩⟩

/-- An operation that answers `Ok`. -/
theorem succeeded {r : Response} (hok : r.status = .ok) (hr : t.responses = s.responses ++ [r])
    (hp : t.phase = .idle) : s.AnswersOrWaits t :=
  .inl ⟨r, hr, hp, fun hne => absurd hok hne⟩

/-- The answer to an outstanding `DevOpen`, if there is one yet. -/
theorem awaitOpen (path : Path) (hp : ∃ w, s.phase = .run w) : s.AnswersOrWaits (s.awaitOpen path) := by
  rcases awaitOpen_cases s path with ⟨-, hw⟩ | ⟨answer, rest, -, ha⟩
  · exact hw.symm ▸ .inr ⟨rfl, hp⟩
  · rw [ha]
    cases answer with
    | granted => exact succeeded rfl rfl rfl
    | accessDenied => exact failed rfl rfl
    | notFound => exact failed rfl rfl
    | otherFailure => exact failed rfl rfl

/-- The answer to the outstanding command of an RDBLK, if there is one yet. -/
theorem awaitBlocks (count : Nat) (hp : ∃ w, s.phase = .run w) : s.AnswersOrWaits (s.awaitBlocks count) := by
  rcases awaitBlocks_cases s count with ⟨-, hw⟩ | ⟨answer, rest, -, ⟨-, ha⟩ | ⟨-, ha⟩⟩
  · exact hw.symm ▸ .inr ⟨rfl, hp⟩
  · exact ha.symm ▸ succeeded rfl rfl rfl
  · exact ha.symm ▸ failed rfl rfl

/-- The end of an extension loop that began with a command on the port. -/
theorem of_extensionEnd {form : ReadForm} (h : ExtensionEnd s t form) (hp : ∃ w, s.phase = .run w) :
    s.AnswersOrWaits t := by
  cases h with
  | waits _ _ hr hphase =>
    rcases hphase with hsame | ⟨e, he⟩
    · exact .inr ⟨hr, hsame ▸ hp⟩
    · exact .inr ⟨hr, _, he⟩
  | failed _ _ hr hphase => exact failed hr hphase
  | done _ _ _ _ hr hphase => exact succeeded (ReadForm.response_status ..) hr hphase

/-- The end of a read. -/
theorem of_readEnd {form : ReadForm} (h : ReadEnd s t form) : s.AnswersOrWaits t := by
  cases h with
  | waits _ _ hr hphase =>
    obtain ⟨_, _, he⟩ := hphase
    exact .inr ⟨hr, _, he⟩
  | failed _ _ _ _ hr hphase => exact failed hr hphase
  | done _ _ _ _ hr hphase => exact succeeded (ReadForm.response_status ..) hr hphase

/-- The answer to the command on the port. -/
theorem of_execRead10 {flag : Byte} {lba : Lba} {count : Count} (h : execRead10 flag lba count s = .next t) :
    s.AnswersOrWaits t := by
  obtain ⟨hp, rfl | ⟨e, he⟩⟩ := execRead10_next h
  · exact awaitBlocks _ hp
  · obtain ⟨-, -, hend⟩ := awaitExtension_next _ _ _ _ he
    exact of_extensionEnd hend hp

end State.AnswersOrWaits

/-- A change of the channel, the anchor or a view gives no response by itself. -/
theorem StateChange.responses {s t : State} {i : Instr} (h : StateChange s i t) : t.responses = s.responses := by
  cases h <;> rfl

/-- Settles O37: by all that an operation can come to. -/
theorem oneResponseOrWaiting : Obligations.OneResponseOrWaiting := by
  intro i s t h
  change s.AnswersOrWaits t
  have hc := exec_case i s
  rw [h] at hc
  generalize hr : (Host.Outcome.next t : Result) = r at hc
  cases hc with
  | raises _ _ => cases hr; exact .failed rfl rfl
  | encodes _ _ _ _ => cases hr; exact .succeeded rfl rfl rfl
  | opens path _ => cases hr; exact .awaitOpen (s := s.sendOpen path) path ⟨_, rfl⟩
  | sends _ _ _ _ _ n _ => cases hr; exact .awaitBlocks (s := s.sendCommand _ _ .blocks) n ⟨_, rfl⟩
  | changes _ u hu => cases hr; exact .succeeded rfl (congrArg (· ++ _) hu.responses) rfl
  | reads _ _ _ _ _ _ =>
    obtain ⟨-, -, hend⟩ := read_next _ _ _ _ _ _ hr.symm
    exact .of_readEnd hend
  | answers _ _ _ => exact .of_execRead10 hr.symm

/-! ### The commands an operation sends -/

/-- Every command sent is an encoded read command on the open path, with the transfer length of its own count field
(30_encoding R92, R96). -/
def State.SendsReadCommands (s t : State) : Prop :=
  ∃ sent, t.trace = s.trace ++ sent ∧ ∀ p cdb x, DevEvent.devCmd p cdb x ∈ sent →
    ∃ lba count flag, p = s.chPath ∧ cdb = encodeCommand s.cfg.opc lba count flag ∧ x = count.toNat * s.cfg.bs

@[simp] theorem awaitOpen_trace (s : State) (path : Path) : (s.awaitOpen path).trace = s.trace := by
  rcases awaitOpen_cases s path with ⟨-, hw⟩ | ⟨answer, rest, -, ha⟩
  · rw [hw]
  · rw [ha]
    cases answer <;> rfl

@[simp] theorem awaitBlocks_trace (s : State) (count : Nat) : (s.awaitBlocks count).trace = s.trace := by
  rcases awaitBlocks_cases s count with ⟨-, hw⟩ | ⟨answer, rest, -, ⟨-, ha⟩ | ⟨-, ha⟩⟩
  · rw [hw]
  · rw [ha]; rfl
  · rw [ha]; rfl

namespace State.SendsReadCommands

variable {s t : State}

/-- An operation that sends nothing. -/
theorem of_trace_eq (h : t.trace = s.trace) : s.SendsReadCommands t :=
  ⟨[], by simpa using h, fun _ _ _ hx => nomatch hx⟩

/-- The primitive of OPEN is no command. -/
theorem of_devOpen {path : Path} (h : t.trace = s.trace ++ [.devOpen path]) : s.SendsReadCommands t :=
  ⟨_, h, fun _ _ _ hx => nomatch List.mem_singleton.1 hx⟩

/-- The primitive of CLOSE is no command. -/
theorem of_devClose {path : Path} (h : t.trace = s.trace ++ [.devClose path]) : s.SendsReadCommands t :=
  ⟨_, h, fun _ _ _ hx => nomatch List.mem_singleton.1 hx⟩

/-- The one command of an RDBLK. -/
theorem of_command {lba : Lba} {count : Count} {flag : Byte} {n : Nat}
    (h : t.trace = s.trace ++ [.devCmd s.chPath (encodeCommand s.cfg.opc lba count flag) (n * s.cfg.bs)])
    (hn : count.toNat = n) : s.SendsReadCommands t := by
  subst hn
  refine ⟨_, h, fun p cdb x hx => ?_⟩
  cases List.mem_singleton.1 hx
  exact ⟨lba, count, flag, rfl, rfl, rfl⟩

/-- The commands of an extension, one block each (42_block_buffer R188). -/
theorem of_extension (h : ∃ sent, t.trace = s.trace ++ sent ∧ ∀ x ∈ sent, isExtensionCommand s x) :
    s.SendsReadCommands t := by
  obtain ⟨sent, htrace, hall⟩ := h
  refine ⟨sent, htrace, fun p cdb x hx => ?_⟩
  obtain ⟨lba, he⟩ := hall _ hx
  cases he
  exact ⟨lba, 1, _, rfl, rfl, rfl⟩

theorem of_execRdblk {lba count : Offset} {flag : Byte} (h : execRdblk lba count flag s = .next t) :
    s.SendsReadCommands t := by
  unfold execRdblk at h
  split at h
  · cases h; exact of_trace_eq rfl
  next hrange =>
  split at h
  · cases h; exact of_trace_eq rfl
  · cases h
    obtain ⟨-, hcount⟩ := (commandInRange_iff lba count).1 (by simpa using hrange)
    have hfield : (count.setWidth 16).toNat = count.toNat := by
      exact (BitVec.toNat_setWidth ..).trans (Nat.mod_eq_of_lt (Nat.lt_succ_of_le hcount))
    exact of_command (awaitBlocks_trace _ _) hfield

theorem of_execRead10 {flag : Byte} {lba : Lba} {count : Count} (h : execRead10 flag lba count s = .next t) :
    s.SendsReadCommands t := by
  obtain ⟨-, rfl | ⟨e, he⟩⟩ := execRead10_next h
  · exact of_trace_eq (awaitBlocks_trace s _)
  · obtain ⟨-, hsent, -⟩ := awaitExtension_next _ _ _ _ he
    exact of_extension hsent

/-- A change of the channel, the anchor or a view sends no command. -/
theorem of_stateChange {i : Instr} (h : StateChange s i t) : s.SendsReadCommands t := by
  cases h with
  | granted _ _ _ _ => exact of_devOpen rfl
  | closed _ => exact of_devClose rfl
  | initialised _ _ _ _ => exact of_trace_eq rfl
  | derived _ _ _ => exact of_trace_eq rfl
  | advanced _ _ _ => exact of_trace_eq rfl

/-- Whatever an operation comes to, it sends read commands only. -/
theorem of_exec {i : Instr} (h : exec i s = .next t) : s.SendsReadCommands t := by
  have hc := exec_case i s
  generalize hr : exec i s = r at hc
  rw [hr] at h
  cases hc with
  | raises _ _ => cases h; exact of_trace_eq rfl
  | encodes _ _ _ _ => cases h; exact of_trace_eq rfl
  | opens path _ => cases h; exact of_devOpen (awaitOpen_trace _ path)
  | sends _ _ _ _ _ _ _ => exact of_execRdblk (hr.trans h)
  | changes _ u hu => cases h; exact of_stateChange (t := u) hu
  | reads _ _ _ _ _ _ =>
    obtain ⟨-, hsent, -⟩ := read_next _ _ _ _ _ _ h
    exact of_extension hsent
  | answers _ _ _ => exact of_execRead10 h

theorem of_step (h : step s = .next t) : s.SendsReadCommands t := by
  rcases step_cases s t h with ⟨-, -, rfl⟩ | ⟨path, -, rfl⟩ |
    ⟨-, w, rest, -, ⟨_, -, rfl⟩ | ⟨i, -, -, he⟩⟩ | ⟨_, _, _, -, -, -, he⟩
  · exact of_trace_eq rfl
  · exact of_trace_eq (awaitOpen_trace s path)
  · exact of_trace_eq rfl
  · exact of_exec (s := { s with requests := rest }) he
  · exact of_exec he

end State.SendsReadCommands

/-- Settles O39: each command sent is an encoded one, whose bytes the round-trip law gives. -/
theorem onlyReadCommandsAreSent : Obligations.OnlyReadCommandsAreSent := by
  intro s t h
  obtain ⟨sent, htrace, hall⟩ := State.SendsReadCommands.of_step h
  refine ⟨sent, htrace, fun p cdb x hx => ?_⟩
  obtain ⟨lba, count, flag, hpath, rfl, rfl⟩ := hall p cdb x hx
  obtain ⟨hlen, -, hcount, hflag, hflag', hopc, hcontrol, -⟩ := commandRoundTrip s.cfg.opc lba count flag
  exact ⟨hpath, hlen, hopc, hcontrol, hflag.trans hflag'.symm, hcount ▸ rfl⟩

end Sys2Proof.Machine

namespace Sys2Proof.Machine

/-! SUPPORT. ENC: the bytes of a command as arithmetic on the operands of a request. -/

/-- A byte cut from a field of `m` bits is cut from the operand that fills the field. -/
theorem extract_setWidth_eq {n m start : Nat} (x : BitVec n) (h : start + 8 ≤ m) :
    (x.setWidth m).extractLsb' start 8 = BitVec.ofNat 8 (x.toNat / 2 ^ start) := by
  rw [BitVec.extractLsb'_setWidth_of_le h, BitVec.extractLsb', Nat.shiftRight_eq_div_pow]

/-- The command of two 64-bit operands, byte by byte, most significant byte first (30_encoding R91, R92). -/
theorem encodeCommand_setWidth (opc : Byte) (lba count : Offset) (flag : Byte) :
    encodeCommand opc (lba.setWidth 32) (count.setWidth 16) flag =
      [ opc, flag,
        BitVec.ofNat 8 (lba.toNat / 2 ^ 24), BitVec.ofNat 8 (lba.toNat / 2 ^ 16), BitVec.ofNat 8 (lba.toNat / 2 ^ 8),
        BitVec.ofNat 8 lba.toNat,
        flag,
        BitVec.ofNat 8 (count.toNat / 2 ^ 8), BitVec.ofNat 8 count.toNat,
        0x00 ] := by
  simp only [encodeCommand, extract_setWidth_eq, Nat.reduceAdd, Nat.reduceLeDiff, Nat.pow_zero, Nat.div_one]

/-- In range, ENC answers the encoded command (40_command_encoder R121). -/
theorem exec_enc_of_inRange {s : State} {lba count : Offset} {flag : Byte} (h : commandInRange lba count = true) :
    exec (.enc lba count flag) s =
      .next (s.after (success (encodeCommand s.cfg.opc (lba.setWidth 32) (count.setWidth 16) flag))) :=
  if_pos h

/-- Out of range, ENC answers `BoundsError` (40_command_encoder R122). -/
theorem exec_enc_of_not_inRange {s : State} {lba count : Offset} {flag : Byte}
    (h : commandInRange lba count = false) :
    exec (.enc lba count flag) s = .next (s.after (failure .boundsError)) :=
  if_neg (Bool.eq_false_iff.1 h)

/-- Settles O15: the op code's row of the operation map, and the two outcomes of the range check, the command's bytes
read from the operands. -/
theorem encGivesTheCommand : Obligations.EncGivesTheCommand := by
  constructor
  · rintro ⟨op, vd, vs, flag, a, b⟩ (rfl : op = 0x01)
    rfl
  · intro s lba count flag
    constructor
    · intro hlba hcount
      rw [exec_enc_of_inRange ((commandInRange_iff lba count).2 ⟨hlba, hcount⟩), encodeCommand_setWidth]
    · intro hout
      exact exec_enc_of_not_inRange ((commandInRange_false_iff lba count).2 hout)

end Sys2Proof.Machine

namespace Sys2Proof.Machine

/-! SUPPORT. The device channel: what each answer of the environment makes of a state that awaits one, and the outcomes
of OPEN, CLOSE, RDBLK and READ10. -/

/-! ### The answer to a `DevOpen` -/

/-- The end that an answer of the environment gives to OPEN (41_device_channel R145, R146), the answer being taken. -/
def State.endOpen (s : State) (path : Path) : OpenAnswer → State
  | .granted => { s with chOpen := true, chPath := path }.after (success [])
  | .accessDenied => s.after (failure .permissionDenied)
  | .notFound => s.after (failure .notFound)
  | .otherFailure => s.after (failure .openFailed)

theorem awaitOpen_unanswered {s : State} (path : Path) (h : s.openAnswers = []) : s.awaitOpen path = s := by
  simp only [State.awaitOpen, h]

theorem awaitOpen_answered {s : State} {answer : OpenAnswer} {rest : List OpenAnswer} (path : Path)
    (h : s.openAnswers = answer :: rest) :
    s.awaitOpen path = { s with openAnswers := rest }.endOpen path answer := by
  rcases awaitOpen_cases s path with ⟨hnil, -⟩ | ⟨answer', rest', hcons, hend⟩
  · exact absurd (h.symm.trans hnil) (List.cons_ne_nil _ _)
  · obtain ⟨rfl, rfl⟩ := List.cons.inj (h.symm.trans hcons)
    exact hend

/-! ### The answer to the command of an RDBLK -/

theorem awaitBlocks_unanswered {s : State} (count : Nat) (h : s.cmdAnswers = []) : s.awaitBlocks count = s := by
  simp only [State.awaitBlocks, h]

/-- An answer that is `ok` and has the transfer length ends the RDBLK with its bytes (41_device_channel R154, R155). -/
theorem awaitBlocks_accepted {s : State} {count : Nat} {answer : CmdAnswer} {rest : List CmdAnswer}
    (h : s.cmdAnswers = answer :: rest) (ha : answer.ok = true ∧ answer.bytes.length = count * s.cfg.bs) :
    s.awaitBlocks count = { s with cmdAnswers := rest }.after (success answer.bytes) := by
  simp only [State.awaitBlocks, h]
  exact if_pos ((answer.accepted_iff _).2 ha)

/-- Any other answer ends it with `IOError` (41_device_channel R156). -/
theorem awaitBlocks_rejected {s : State} {count : Nat} {answer : CmdAnswer} {rest : List CmdAnswer}
    (h : s.cmdAnswers = answer :: rest) (ha : ¬ (answer.ok = true ∧ answer.bytes.length = count * s.cfg.bs)) :
    s.awaitBlocks count = { s with cmdAnswers := rest }.after (failure .ioError) := by
  simp only [State.awaitBlocks, h]
  exact if_neg fun hacc => ha ((answer.accepted_iff _).1 hacc)

/-! ### OPEN -/

theorem exec_openDev_of_open {s : State} (path : Path) (h : s.chOpen = true) :
    exec (.openDev path) s = .next (s.after (failure .openFailed)) :=
  if_pos h

theorem exec_openDev_of_closed {s : State} (path : Path) (h : s.chOpen = false) :
    exec (.openDev path) s = .next ((s.sendOpen path).awaitOpen path) :=
  if_neg (Bool.eq_false_iff.1 h)

/-- Settles O16: the op code's row of the operation map, the refusal while open, and the answer to the `DevOpen` just
sent. -/
theorem openOpensTheChannel : Obligations.OpenOpensTheChannel := by
  constructor
  · rintro ⟨op, vd, vs, flag, a, b⟩ (rfl : op = 0x02)
    rfl
  · intro s path
    refine ⟨exec_openDev_of_open path, fun answer rest hclosed hanswer => ?_⟩
    have hsent : (s.sendOpen path).openAnswers = answer :: rest := hanswer
    rw [exec_openDev_of_closed path hclosed, awaitOpen_answered path hsent]
    cases answer <;> rfl

/-- Settles O44: the same ends as at once, of the `DevOpen` that stands there. -/
theorem lateDevOpenAnswerEndsTheOpen : Obligations.LateDevOpenAnswerEndsTheOpen := by
  intro s path hp
  rw [step_opening hp]
  refine ⟨fun hnone => congrArg _ (awaitOpen_unanswered path hnone), fun answer rest hanswer => ?_⟩
  rw [awaitOpen_answered path hanswer]
  cases answer <;> rfl

/-! ### CLOSE -/

/-- Settles O17: the op code's row of the operation map, and the two branches of CLOSE's one check. -/
theorem closeClosesTheChannel : Obligations.CloseClosesTheChannel := by
  constructor
  · rintro ⟨op, vd, vs, flag, a, b⟩ (rfl : op = 0x03)
    rfl
  · intro s
    constructor
    · intro hopen
      exact if_neg (by simp [hopen])
    · intro hclosed
      exact if_pos (by simp [hclosed])

/-! ### RDBLK -/

/-- The check of the range comes before that of the channel (41_device_channel R155). -/
theorem exec_rdblk_of_not_inRange {s : State} {lba count : Offset} (flag : Byte)
    (h : commandInRange lba count = false) :
    exec (.rdblk lba count flag) s = .next (s.after (failure .boundsError)) :=
  if_pos (congrArg not h)

theorem exec_rdblk_of_closed {s : State} {lba count : Offset} (flag : Byte) (h : commandInRange lba count = true)
    (hclosed : s.chOpen = false) : exec (.rdblk lba count flag) s = .next (s.after (failure .closed)) := by
  simp only [exec, execRdblk, h, hclosed, Bool.not_true, Bool.not_false, Bool.false_eq_true, if_false, if_true]
  rfl

/-- Past both checks the command of the operands' values is sent and awaits its answer. -/
theorem exec_rdblk_of_open {s : State} {lba count : Offset} (flag : Byte) (h : commandInRange lba count = true)
    (hopen : s.chOpen = true) :
    exec (.rdblk lba count flag) s =
      .next ((s.sendCommand (encodeCommand s.cfg.opc (BitVec.ofNat 32 lba.toNat) (BitVec.ofNat 16 count.toNat) flag)
        (count.toNat * s.cfg.bs) .blocks).awaitBlocks count.toNat) := by
  simp only [exec, execRdblk, h, hopen, Bool.not_true, Bool.false_eq_true, if_false, BitVec.ofNat_toNat]

/-- Settles O18: the op code's row of the operation map, the two refusals, and the answer to the command just sent. -/
theorem rdblkReadsBlocks : Obligations.RdblkReadsBlocks := by
  constructor
  · rintro ⟨op, vd, vs, flag, a, b⟩ (rfl : op = 0x04)
    rfl
  · intro s lba count flag
    refine ⟨fun hout => exec_rdblk_of_not_inRange flag ((commandInRange_false_iff lba count).2 hout),
      fun hlba hcount => exec_rdblk_of_closed flag ((commandInRange_iff lba count).2 ⟨hlba, hcount⟩), ?_⟩
    intro hlba hcount hopen cdb u answer rest hanswer
    have hsent : (s.sendCommand cdb (count.toNat * s.cfg.bs) .blocks).cmdAnswers = answer :: rest := hanswer
    rw [exec_rdblk_of_open flag ((commandInRange_iff lba count).2 ⟨hlba, hcount⟩) hopen]
    exact ⟨fun hok => congrArg _ (awaitBlocks_accepted hsent hok),
      fun hbad => congrArg _ (awaitBlocks_rejected hsent hbad)⟩

/-- Settles O8: the primitive is sent, and awaiting its answer leaves that state. -/
theorem unansweredOperationsWait : Obligations.UnansweredOperationsWait := by
  constructor
  · intro s path hclosed hnone
    have hsent : (s.sendOpen path).openAnswers = [] := hnone
    rw [exec_openDev_of_closed path hclosed, awaitOpen_unanswered path hsent]
    rfl
  · intro s lba count flag hlba hcount hopen hnone cdb
    have hsent : (s.sendCommand cdb (count.toNat * s.cfg.bs) .blocks).cmdAnswers = [] := hnone
    rw [exec_rdblk_of_open flag ((commandInRange_iff lba count).2 ⟨hlba, hcount⟩) hopen,
      awaitBlocks_unanswered count.toNat hsent]
    rfl

/-! ### READ10 -/

/-- A READ10 that does not stand on the device port stops by name (30_encoding R90; log 9). -/
theorem exec_read10_absent {s : State} {flag : Byte} {lba : Lba} {count : Count}
    (h : ∀ k, s.phase ≠ .run (.reading (encodeCommand s.cfg.opc lba count flag) k)) :
    exec (.read10 flag lba count) s = .fault .noCommandOutstanding := by
  change execRead10 flag lba count s = _
  unfold execRead10
  split
  next cdb k hp =>
    have hne : cdb ≠ encodeCommand s.cfg.opc lba count flag := fun hcdb => h k (hcdb ▸ hp)
    exact if_neg hne
  next => rfl

/-- Settles O19: on the port READ10 is the answer to the RDBLK that waits there. -/
theorem read10EndsAWaitingRdblk : Obligations.Read10EndsAWaitingRdblk := by
  intro s flag lba count
  refine ⟨fun hp => ?_, exec_read10_absent⟩
  rw [exec_read10_blocks s lba count flag hp]
  exact ⟨fun hnone => congrArg _ (awaitBlocks_unanswered _ hnone), fun answer rest hanswer =>
    ⟨fun hok => congrArg _ (awaitBlocks_accepted hanswer hok),
      fun hbad => congrArg _ (awaitBlocks_rejected hanswer hbad)⟩⟩

end Sys2Proof.Machine

namespace Sys2Proof.Machine

/-! SUPPORT. BINIT, DERIVE and ADV: the outcomes of their checks, and the view table they leave. -/

/-! ### DERIVE and ADV -/

/-- DERIVE past its index check, by the slot it derives from (42_block_buffer R175, R176). -/
theorem exec_derive_of_slot {s : State} {vd vs : Byte} {v : View} (extra : Offset) (hvd : vd.toNat < s.cfg.nviews)
    (hvs : vs.toNat < s.cfg.nviews) (hv : s.views[vs.toNat]? = some v) :
    exec (.derive vd vs extra) s =
      if v.valid = false then .next (s.after (failure .noView))
      else if maxOffset < v.rel.toNat + extra.toNat then .next (s.after (failure .boundsError))
      else
        let v' : View := { valid := true, rel := BitVec.ofNat 64 (v.rel.toNat + extra.toNat) }
        .next ({ s with views := s.views.set vd.toNat v' }.after (success [])) := by
  have hd := (s.viewInRange_iff vd).2 hvd
  have hs := (s.viewInRange_iff vs).2 hvs
  simp only [exec, execDerive, hd, hs, s.view_of_slot vs v hv, Bool.and_self, Bool.not_true, Bool.false_eq_true,
    if_false, Bool.not_eq_eq_eq_not, BitVec.add_def, gt_iff_lt]
  rfl

/-- Settles O24: the two make the same checks in the same order, and a slot that passes them is valid already. -/
theorem deriveIntoItsSourceIsAdvance : Obligations.DeriveIntoItsSourceIsAdvance := by
  intro s v extra
  change execDerive v v extra s = execAdv v extra s
  cases hvalid : (s.view v).valid with
  | false => simp only [execDerive, execAdv, Bool.and_self, hvalid, Bool.not_false, if_true]
  | true => simp only [execDerive, execAdv, Bool.and_self, hvalid]

/-- Settles O22: the op code's row of the operation map, the index check, and the three outcomes past it. -/
theorem deriveMakesAView : Obligations.DeriveMakesAView := by
  constructor
  · rintro ⟨op, vd, vs, flag, a, b⟩ (rfl : op = 0x09)
    rfl
  · intro s vd vs extra
    constructor
    · intro hout
      apply exec_of_not_wf
      rw [← s.viewInRange_false_iff, ← s.viewInRange_false_iff] at hout
      exact Bool.and_eq_false_iff.2 hout
    · intro v hvd hvs hv
      rw [exec_derive_of_slot extra hvd hvs hv]
      refine ⟨fun hinvalid => if_pos hinvalid, fun hvalid hover => ?_, fun hvalid hfits => ?_⟩
      · exact (if_neg (by simp [hvalid])).trans (if_pos hover)
      · exact (if_neg (by simp [hvalid])).trans (if_neg (Nat.not_lt.2 hfits))

/-- Settles O23: past the op code's row, ADV is DERIVE into its own source slot. -/
theorem advMovesAView : Obligations.AdvMovesAView := by
  constructor
  · rintro ⟨op, vd, vs, flag, a, b⟩ (rfl : op = 0x0A)
    rfl
  · intro s vd delta
    obtain ⟨-, hderive⟩ := deriveMakesAView
    obtain ⟨hillegal, hslot⟩ := hderive s vd vd delta
    rw [← deriveIntoItsSourceIsAdvance]
    exact ⟨fun hout => hillegal (.inl hout), fun v hvd => hslot v hvd hvd⟩

/-! ### BINIT -/

/-- The view table BINIT leaves: every view is dead but the one of slot `i` (42_block_buffer R172). -/
def anchoredViews (views : List View) (i : Nat) (rel : Offset) : List View :=
  (views.map fun v => { v with valid := false }).set i { valid := true, rel := rel }

theorem anchoredViews_length (views : List View) (i : Nat) (rel : Offset) :
    (anchoredViews views i rel).length = views.length := by
  simp [anchoredViews]

theorem anchoredViews_self {views : List View} {i : Nat} (h : i < views.length) (rel : Offset) :
    (anchoredViews views i rel)[i]? = some { valid := true, rel := rel } := by
  simp [anchoredViews, h]

theorem anchoredViews_other {views : List View} {i j : Nat} {rel : Offset} {v : View} (hj : j ≠ i)
    (h : (anchoredViews views i rel)[j]? = some v) : v.valid = false := by
  rw [anchoredViews, List.getElem?_set_ne hj.symm, List.getElem?_map, Option.map_eq_some_iff] at h
  obtain ⟨_, -, rfl⟩ := h
  rfl

/-- BINIT past its index check: the alignment of the anchor decides (42_block_buffer R171, R172). -/
theorem exec_binit_of_inRange {s : State} {vd : Byte} (anchor rel : Offset) (h : vd.toNat < s.cfg.nviews) :
    exec (.binit vd anchor rel) s =
      if anchor.toNat % s.cfg.bs ≠ 0 then .next (s.after (failure .boundsError))
      else .next ({ s with
        data := [], mlen := 0, abs := anchor, views := anchoredViews s.views vd.toNat rel }.after (success [])) := by
  simp only [exec, execBinit, (s.viewInRange_iff vd).2 h, Bool.not_true, Bool.false_eq_true, if_false]
  rfl

/-- Settles O21: the op code's row of the operation map, the two checks, and the table of one live view. -/
theorem binitBuildsTheBuffer : Obligations.BinitBuildsTheBuffer := by
  constructor
  · rintro ⟨op, vd, vs, flag, a, b⟩ (rfl : op = 0x08)
    rfl
  · intro s vd anchor rel
    refine ⟨fun hout => exec_of_not_wf ((s.viewInRange_false_iff vd).2 hout), fun hin hmis => ?_,
      fun hin haligned hslots => ?_⟩
    · exact (exec_binit_of_inRange anchor rel hin).trans (if_pos hmis)
    · exact ⟨anchoredViews s.views vd.toNat rel, anchoredViews_length .., anchoredViews_self (hslots ▸ hin) rel,
        fun j v hj => anchoredViews_other hj,
        (exec_binit_of_inRange anchor rel hin).trans (if_neg (not_not.2 haligned))⟩

end Sys2Proof.Machine

namespace Sys2Proof.Machine

/-! SUPPORT. The reads of the block buffer: the number of blocks, the refusals in their order, and the ends of an
extension: every block committed, one answer rejected, or the answers not all there. -/

/-! ### The number of blocks -/

/-- Settles O32: `n - 1` is a quotient by `BS`, so `n` is the first multiple past the range. -/
theorem blockCountIsLeast : Obligations.BlockCountIsLeast := by
  intro bs mlen stop hbs
  refine ⟨?_, fun hlt => ⟨?_, ?_, ?_, fun m hm => ?_⟩, ?_, ?_, ?_, ?_⟩
  · rw [needsExtension_iff]
    omega
  · rw [extensionBlocks, ← Nat.add_div_right _ hbs]
    congr 1
    omega
  · exact Nat.le_add_left 1 _
  · have hcover := Nat.lt_mul_div_succ (stop - 1 - mlen) hbs
    rw [Nat.mul_comm] at hcover
    rw [extensionBlocks]
    omega
  · have hquot : (stop - 1 - mlen) / bs < m := (Nat.div_lt_iff_lt_mul hbs).2 (by omega)
    exact hquot
  · simp [needsExtension]
  · simp [extensionBlocks]
  · have hlast : mlen + bs - 1 - mlen = bs - 1 := by omega
    rw [extensionBlocks, hlast, Nat.div_eq_of_lt (by omega)]
  · have hnext : mlen + bs + 1 - 1 - mlen = bs := by omega
    rw [extensionBlocks, hnext, Nat.div_self hbs]

/-! ### The refusals of a read, in their order -/

/-- A read through a slot that holds no view (42_block_buffer R183). -/
theorem read_noView {s : State} {form : ReadForm} {vs : Byte} {offset length : Offset} {v : View}
    (hn : vs.toNat < s.cfg.nviews) (hv : s.views[vs.toNat]? = some v) (hvalid : v.valid = false) :
    s.read form vs offset length = .next (s.after (failure .noView)) := by
  simp only [State.read, (s.viewInRange_iff vs).2 hn, s.view_of_slot vs v hv, hvalid, Bool.not_true, Bool.not_false,
    Bool.false_eq_true, if_false, if_true]
  rfl

/-- A read whose last byte lies past 64 bits (42_block_buffer R184). -/
theorem read_overflow {s : State} {form : ReadForm} {vs : Byte} {offset length : Offset} {v : View}
    (hn : vs.toNat < s.cfg.nviews) (hv : s.views[vs.toNat]? = some v) (hvalid : v.valid = true)
    (hover : maxOffset < v.rel.toNat + offset.toNat + length.toNat) :
    s.read form vs offset length = .next (s.after (failure .boundsError)) := by
  simp only [State.read, (s.viewInRange_iff vs).2 hn, s.view_of_slot vs v hv, hvalid, Bool.not_true,
    Bool.false_eq_true, if_false, gt_iff_lt, hover, if_true]
  rfl

/-- A read that needs `n` blocks from block `base` on: the capacity, the block addresses and the channel decide, in
this order (42_block_buffer R186, R187, 60_exceptions R248). -/
theorem refusals_of_lacks {s : State} {i : Instr} {start len n base : Nat} (hra : s.readsAt i start len)
    (hl : s.lacks (start + len) n base) :
    (¬ s.hasRoom n ∨ base + n - 1 > 2 ^ 32 - 1 → exec i s = .next (s.after (failure .boundsError))) ∧
      (s.hasRoom n → base + n - 1 ≤ 2 ^ 32 - 1 → s.chOpen = false →
        exec i s = .next (s.after (failure .closed))) := by
  obtain ⟨form, -, hexec⟩ := exec_of_readsAt s i start len hra
  obtain ⟨hneeds, rfl, rfl⟩ := hl
  have hroom := le_arenaLimit_iff s.cfg (s.mlen.toNat + (s.extensionFor form start len).n * s.cfg.bs)
  rw [hexec]
  constructor
  · intro hout
    refine (if_pos hneeds).trans ?_
    by_cases hr : s.mlen.toNat + (s.extensionFor form start len).n * s.cfg.bs ≤ arenaLimit s.cfg
    · exact (if_neg (Nat.not_lt.2 hr)).trans (if_pos (hout.resolve_left (not_not.2 (hroom.1 hr))))
    · exact if_pos (Nat.not_le.1 hr)
  · intro hr hlba hclosed
    exact (if_pos hneeds).trans ((if_neg (Nat.not_lt.2 (hroom.2 hr))).trans
      ((if_neg (Nat.not_lt.2 hlba)).trans (if_pos hclosed)))

/-- Settles O25: the eight are one read, refused at its index, its view, its arithmetic, and then as it lacks blocks. -/
theorem readsRefuseInOrder : Obligations.ReadsRefuseInOrder := by
  intro s i vs offset len hread
  obtain ⟨form, length, rfl, hexec, -⟩ := exec_of_readOf s i vs offset len hread
  refine ⟨fun hout => ?_, fun v hn hv => ⟨fun hinvalid => ?_, fun hvalid hover => ?_⟩,
    fun start n base hra hl => refusals_of_lacks hra hl⟩
  · exact hexec.trans (read_illegal ((s.viewInRange_false_iff vs).2 hout))
  · exact hexec.trans (read_noView hn hv hinvalid)
  · exact hexec.trans (read_overflow hn hv hvalid hover)

/-! ### The ends of a read -/

/-- Settles O26: the read of present bytes. -/
theorem readsOfPresentBytes : Obligations.ReadsOfPresentBytes :=
  fun _ _ _ _ hs hra hp => exec_present hs hra hp

/-- Settles O27: the commit of all `n` blocks, by the values and the canonical form of the grown arena. -/
theorem readsExtendTheArena : Obligations.ReadsExtendTheArena := by
  intro s i start len n base answers rest hs hra hl hroom hlba ho htape hn hb
  obtain ⟨r, hans, hexec⟩ := exec_commits hs hra hl hroom hlba ho htape hn hb
  exact ⟨s.data.append (stagedBytes answers), r, Memory.append_wf _ _ hs.dataOk, Memory.append_values _ _, hans, hexec⟩

/-- A read that has got some of its blocks, short of the last, goes on with the rest of the tape: one more command is
sent than answered, and the blocks are staged (42_block_buffer R188, R195). -/
theorem exec_extending {s : State} {i : Instr} {start len n base : Nat} {answers rest : List CmdAnswer}
    (hra : s.readsAt i start len) (hl : s.lacks (start + len) n base) (hroom : s.hasRoom n)
    (hlba : base + n - 1 ≤ 2 ^ 32 - 1) (ho : s.chOpen = true) (htape : s.cmdAnswers = answers ++ rest)
    (hn : answers.length < n) (hb : ∀ a ∈ answers, a.isBlock s.cfg.bs) :
    ∃ form, let e : Extension := ⟨form, start, len, n, base, answers.length, stagedBytes answers⟩
      exec i s = State.awaitExtension rest e { s with
        trace := s.trace ++ extensionCommands s.cfg s.chPath base (answers.length + 1)
        cmdAnswers := rest
        phase := .run (.reading
          (encodeCommand s.cfg.opc (BitVec.ofNat 32 (base + answers.length)) 1 s.cfg.extFlag) (.extension e)) } := by
  obtain ⟨form, -, hexec⟩ := exec_extends s i start len n base hra hl hroom hlba ho
  have hbefore : 0 + answers.length < n := by omega
  have htaken : (Extension.fresh form start len n base).takeAll answers =
      ⟨form, start, len, n, base, answers.length, stagedBytes answers⟩ := by
    simp [Extension.takeAll, Extension.fresh]
  refine ⟨form, ?_⟩
  rw [hexec, htape, awaitExtension_skip answers rest _ (s.sendExtension _) htape rfl hb hbefore,
    sendExtension_extended, htaken]

/-- Settles O28: refused on a closed channel; on an open one the loop drops its stage at the rejected
answer. -/
theorem failedExtensionLeavesTheArena : Obligations.FailedExtensionLeavesTheArena := by
  intro s i start len n base hra hl hroom hlba
  obtain ⟨-, hclosed⟩ := refusals_of_lacks hra hl
  refine ⟨hclosed hroom hlba, fun answers rest bad ho htape hn hb hbad => ⟨?_, hra, hl⟩⟩
  obtain ⟨form, hexec⟩ := exec_extending hra hl hroom hlba ho htape hn hb
  exact hexec.trans (awaitExtension_reject bad rest _ _ hbad)

/-- Settles O29: the loop takes the whole tape and waits. -/
theorem suspendedExtensionHoldsItsStage : Obligations.SuspendedExtensionHoldsItsStage := by
  intro s i start len n base hra hl hroom hlba ho hn hb
  have htape := (List.append_nil s.cmdAnswers).symm
  obtain ⟨form, hexec⟩ := exec_extending hra hl hroom hlba ho htape hn hb
  exact ⟨_, rfl, rfl, rfl, rfl, rfl, rfl, hexec⟩

/-- Settles O20: the three ways the loop takes one answer; the last block ends it with the commit. -/
theorem read10CarriesAnExtensionOn : Obligations.Read10CarriesAnExtensionOn := by
  intro s flag lba count e answer hp htape u
  have hexec := exec_read10_extension s lba count flag e hp
  rw [htape] at hexec
  refine ⟨fun hbad => hexec.trans (awaitExtension_reject answer [] e s hbad), fun hok hmore => ?_,
    fun hok hlast hinv => ?_⟩
  · rw [hexec, awaitExtension_more answer [] e s hok hmore, awaitExtension_nil, State.sendExtension, Nat.one_mul]
    rfl
  · obtain ⟨-, -, he⟩ := (State.phaseInv_extension hp).1 hinv.sequencer
    have hstage : (e.stage ++ answer.bytes).length = e.n * s.cfg.bs := by
      rw [List.length_append, he.stageLength, hok.2, ← hlast, Nat.succ_mul]
    have hvalues : (s.data.append (e.stage ++ answer.bytes)).map (·.2) =
        s.data.map (·.2) ++ e.stage ++ answer.bytes := by
      rw [Memory.append_values, List.append_assoc]
    exact ⟨s.data.append (e.stage ++ answer.bytes), _, Memory.append_wf _ _ hinv.arch.dataOk, hvalues, rfl,
      hexec.trans (awaitExtension_commits s answer [] e hinv.arch hstage hok hlast (he.covers hinv.arch))⟩

/-! ### After a read that answers `Ok` -/

/-- The state from which a read that needs no block, or has got the `n` it needs, gives its answer. -/
inductive State.ReadFrom (s : State) (stop : Nat) : State → Prop where
  | present (h : stop ≤ s.mlen.toNat) : s.ReadFrom stop s
  | grown (n base : Nat) (answers rest : List CmdAnswer) (hl : s.lacks stop n base) (hroom : s.hasRoom n) :
      s.ReadFrom stop (s.committed base n answers rest)

/-- A read that needs blocks: it fails, it waits, or it has got them all and answers from the grown arena. -/
theorem ends_of_lacks {s : State} {i : Instr} {start len n base : Nat} (hs : s.ArchInv)
    (hra : s.readsAt i start len) (hl : s.lacks (start + len) n base) :
    (∃ (u : State) (st : Status), st ≠ .ok ∧ exec i s = .next (u.after (failure st)) ∧ u.responses = s.responses) ∨
    (∃ u, exec i s = .next u ∧ u.responses = s.responses) ∨
    ∃ answers rest r, s.hasRoom n ∧
      readAnswer s.cfg.recordOrder i ((s.committed base n answers rest).slice start len) = some r ∧
      exec i s = .next ((s.committed base n answers rest).after r) := by
  obtain ⟨hbounds, hclosed⟩ := refusals_of_lacks hra hl
  by_cases hroom : s.hasRoom n
  swap
  · exact .inl ⟨s, .boundsError, by decide, hbounds (.inl hroom), rfl⟩
  by_cases hlba : base + n - 1 ≤ 2 ^ 32 - 1
  swap
  · exact .inl ⟨s, .boundsError, by decide, hbounds (.inr (Nat.not_le.1 hlba)), rfl⟩
  cases ho : s.chOpen with
  | false => exact .inl ⟨s, .closed, by decide, hclosed hroom hlba ho, rfl⟩
  | true =>
    rcases tape_cases s.cfg.bs n s.cmdAnswers with
      ⟨answers, rest, htape, hn, hb⟩ | ⟨answers, bad, rest, htape, hn, hb, hbad⟩ | ⟨hn, hb⟩
    · obtain ⟨r, hans, hexec⟩ := exec_commits hs hra hl hroom hlba ho htape hn hb
      exact .inr (.inr ⟨answers, rest, r, hroom, hans, hexec⟩)
    · obtain ⟨-, hrejected⟩ := failedExtensionLeavesTheArena s i start len n base hra hl hroom hlba
      obtain ⟨hexec, -⟩ := hrejected answers rest bad ho htape hn hb hbad
      exact .inl ⟨_, .ioError, by decide, hexec, rfl⟩
    · obtain ⟨_, -, -, -, -, -, -, hexec⟩ :=
        suspendedExtensionHoldsItsStage s i start len n base hra hl hroom hlba ho hn hb
      exact .inr (.inl ⟨_, hexec, rfl⟩)

/-- An outcome that ends with one response ends with that response and in that state only. -/
theorem answered_unique {s t u : State} {res : Result} {r r' : Response} (hexec : res = .next t)
    (hresp : t.responses = s.responses ++ [r]) (hrest : u.responses = s.responses) (hu : res = .next (u.after r')) :
    r' = r ∧ t = u.after r := by
  obtain rfl : t = u.after r' := Host.Outcome.next.inj (hexec.symm.trans hu)
  rw [State.after_responses, hrest] at hresp
  obtain rfl : r' = r := by simpa using hresp
  exact ⟨rfl, rfl⟩

/-- A read that answers `Ok` had its bytes present, or has got every block it needed. -/
theorem ok_readFrom {s t : State} {i : Instr} {start len : Nat} {r : Response} (hs : s.ArchInv)
    (hra : s.readsAt i start len) (hexec : exec i s = .next t) (hresp : t.responses = s.responses ++ [r])
    (hok : r.status = .ok) :
    ∃ u, s.ReadFrom (start + len) u ∧ readAnswer s.cfg.recordOrder i (u.slice start len) = some r ∧
      t = u.after r := by
  by_cases hp : start + len ≤ s.mlen.toNat
  · obtain ⟨r', hans, hu⟩ := exec_present hs hra hp
    obtain ⟨rfl, ht⟩ := answered_unique (u := s) hexec hresp rfl hu
    exact ⟨s, .present hp, hans, ht⟩
  · obtain ⟨n, base, hl⟩ : ∃ n base, s.lacks (start + len) n base := ⟨_, _, Nat.not_le.1 hp, rfl, rfl⟩
    rcases ends_of_lacks hs hra hl with
      ⟨u, st, hst, hu, hrest⟩ | ⟨u, hu, hrest⟩ | ⟨answers, rest, r', hroom, hans, hu⟩
    · obtain ⟨rfl, -⟩ := answered_unique hexec hresp hrest hu
      exact absurd hok hst
    · obtain rfl : t = u := Host.Outcome.next.inj (hexec.symm.trans hu)
      exact absurd (hresp.symm.trans hrest) (by simp)
    · obtain ⟨rfl, ht⟩ := answered_unique (u := s.committed base n answers rest) hexec hresp rfl hu
      exact ⟨_, .grown n base answers rest hl hroom, hans, ht⟩

/-- A read that needs blocks needs one number of them from one base on. -/
theorem State.lacks_unique {s : State} {stop n n' base base' : Nat} (h : s.lacks stop n base)
    (h' : s.lacks stop n' base') : n = n' := by
  obtain ⟨-, rfl, -⟩ := h
  obtain ⟨-, rfl, -⟩ := h'
  rfl

namespace State.ReadFrom

variable {s u : State} {stop : Nat}

theorem cfg (h : s.ReadFrom stop u) : u.cfg = s.cfg := by
  cases h <;> rfl

/-- The bytes asked for are present (42_block_buffer R192 (a)). -/
theorem covers (h : s.ReadFrom stop u) (hs : s.ArchInv) : stop ≤ u.mlen.toNat := by
  cases h with
  | present h => exact h
  | grown n base answers rest hl hroom =>
    exact (s.lacks_covers _ _ _ hs.bs_pos hl).trans_eq (State.committed_mlen hroom base answers rest).symm

/-- The arena has grown by the blocks needed, by nothing when none was (42_block_buffer R192 (b)). -/
theorem growth (h : s.ReadFrom stop u) :
    (stop ≤ s.mlen.toNat → u.mlen = s.mlen) ∧
      ∀ n base, s.lacks stop n base → u.mlen.toNat = s.mlen.toNat + n * s.cfg.bs := by
  cases h with
  | present h => exact ⟨fun _ => rfl, fun n base hl => absurd hl.1 (Nat.not_lt.2 h)⟩
  | grown n base answers rest hl hroom =>
    refine ⟨fun hp => absurd hl.1 (Nat.not_lt.2 hp), fun n' base' hl' => ?_⟩
    rw [State.committed_mlen hroom, State.lacks_unique hl hl']

/-- The old bytes still stand in front (42_block_buffer R192 (c)). -/
theorem data_prefix (h : s.ReadFrom stop u) : s.data <+: u.data := by
  cases h with
  | present _ => exact List.prefix_rfl
  | grown n base answers rest _ _ => exact s.data.prefix_append _

/-- Every byte that was present reads the same (42_block_buffer R192 (e)). -/
theorem read_old (h : s.ReadFrom stop u) (hs : s.ArchInv) {a : Nat} (ha : a < s.mlen.toNat) :
    u.data.read a = s.data.read a := by
  cases h with
  | present _ => rfl
  | grown n base answers rest _ _ =>
    exact Memory.read_append_old _ _ hs.dataOk a (hs.lengthIsMlen.symm ▸ ha)

end State.ReadFrom

/-- Settles O33: by the state the read has answered from; a later covered read finds its bytes present. -/
theorem readGuarantees : Obligations.ReadGuarantees := by
  intro s t i start len r hs hra hexec hresp hok
  obtain ⟨u, hfrom, hans, rfl⟩ := ok_readFrom hs hra hexec hresp hok
  obtain ⟨t, ht, hinv⟩ := exec_answers hs (ne_read10_of_readsAt hra)
  obtain rfl : u.after r = t := Host.Outcome.next.inj (hexec.symm.trans ht)
  have hcovers := hfrom.covers hs
  have haligned : u.mlen.toNat % s.cfg.bs = 0 := hfrom.cfg ▸ hinv.arch.mlenAligned
  refine ⟨hans, hcovers, ⟨haligned, hfrom.growth⟩, hfrom.data_prefix, fun j start' len' hra' hle => ?_,
    fun a ha => hfrom.read_old hs ha⟩
  exact hfrom.cfg ▸ exec_present hinv.arch hra' (hle.trans hcovers)

end Sys2Proof.Machine

namespace Sys2Proof.Machine

/-! SUPPORT. An operation that has sent its primitive and waits is the machine with that primitive on the port, and
answers taken in two steps are answers taken in one. -/

/-! ### What stands on the device port -/

/-- A command of BBR stands on the device port, unanswered (30_encoding R92, 10_state R47). -/
def State.CommandOnPort (s : State) : Prop :=
  ∃ lba count flag k, s.phase = .run (.reading (encodeCommand s.cfg.opc lba count flag) k)

/-- The command an extension waits for, whatever it reads, takes that extension on. -/
theorem step_awaitsExtension {s : State} {lba : Lba} {count : Count} {flag : Byte} {e : Extension}
    (hp : s.phase = .run (.reading (encodeCommand s.cfg.opc lba count flag) (.extension e))) :
    step s = State.awaitExtension s.cmdAnswers e s :=
  (step_command hp (decodeCommand_encodeCommand _ _ _ _)).trans (exec_read10_extension s _ _ _ e hp)

theorem ne_idle_of_run {s : State} {w : Running} (hp : s.phase = .run w) : s.phase ≠ .idle := by
  rw [hp]
  exact Phase.noConfusion

/-- READ10 answers only where its command stands on the port (log 9). -/
theorem commandOnPort_of_read10 {s t : State} {flag : Byte} {lba : Lba} {count : Count}
    (h : exec (.read10 flag lba count) s = .next t) : s.CommandOnPort := by
  by_contra habsent
  have hfault := exec_read10_absent (s := s) (flag := flag) (lba := lba) (count := count)
    fun k hp => habsent ⟨lba, count, flag, k, hp⟩
  cases h.symm.trans hfault

/-- An OPEN goes on waiting only when it has no answer (70_reset R294). -/
theorem awaitOpen_waits {s : State} {path : Path} (h : (s.awaitOpen path).phase ≠ .idle) :
    s.openAnswers = [] ∧ s.awaitOpen path = s := by
  rcases awaitOpen_cases s path with hw | ⟨answer, rest, -, ha⟩
  · exact hw
  · rw [ha] at h
    cases answer <;> exact absurd rfl h

/-- An RDBLK goes on waiting only when it has no answer (70_reset R294). -/
theorem awaitBlocks_waits {s : State} {count : Nat} (h : (s.awaitBlocks count).phase ≠ .idle) :
    s.cmdAnswers = [] ∧ s.awaitBlocks count = s := by
  rcases awaitBlocks_cases s count with hw | ⟨answer, rest, -, ⟨-, ha⟩ | ⟨-, ha⟩⟩
  · exact hw
  · exact absurd rfl (ha ▸ h)
  · exact absurd rfl (ha ▸ h)

/-- A command on the port is followed by another command or by IDLE, never by a `DevOpen`. -/
theorem read10_ne_opening {s t : State} {flag : Byte} {lba : Lba} {count : Count} {cdb : List Byte} {k : Continuation}
    (hs : s.phase = .run (.reading cdb k)) (h : exec (.read10 flag lba count) s = .next t) (path : Path) :
    t.phase ≠ .run (.opening path) := by
  intro hp
  obtain ⟨-, rfl | ⟨e, he⟩⟩ := execRead10_next h
  · obtain ⟨-, hsame⟩ := awaitBlocks_waits (ne_idle_of_run hp)
    rw [hsame, hs] at hp
    cases hp
  · obtain ⟨-, -, hend⟩ := awaitExtension_next _ _ _ _ he
    cases hend with
    | waits _ _ _ hphase =>
      rcases hphase with hsame | ⟨e', he'⟩
      · cases hs.symm.trans (hsame.symm.trans hp)
      · cases he'.symm.trans hp
    | failed _ _ _ hidle => cases hidle.symm.trans hp
    | done _ _ _ _ _ hidle => cases hidle.symm.trans hp

/-! ### Answers that come to a primitive on the port -/

/-- The extension loop on early answers, and then on late ones, is the loop on all of them. -/
theorem awaitExtension_late {s t : State} {early : List CmdAnswer} {e : Extension} {lba : Lba} {count : Count}
    {flag : Byte} (hs : s.phase = .run (.reading (encodeCommand s.cfg.opc lba count flag) (.extension e)))
    (h : State.awaitExtension early e { s with cmdAnswers := early } = .next t) (ht : t.phase ≠ .idle)
    (late : List CmdAnswer) :
    step { t with cmdAnswers := late } =
      State.awaitExtension (early ++ late) e { s with cmdAnswers := early ++ late } := by
  induction early generalizing s e lba count flag with
  | nil =>
    obtain rfl := Host.Outcome.next.inj h
    exact step_awaitsExtension hs
  | cons a rest ih =>
    have hall : a :: rest ++ late = a :: (rest ++ late) := List.cons_append
    by_cases ha : a.isBlock s.cfg.bs
    · by_cases hn : e.i + 1 < e.n
      · rw [awaitExtension_more a rest e { s with cmdAnswers := a :: rest } ha hn] at h
        rw [hall, awaitExtension_more a (rest ++ late) e { s with cmdAnswers := a :: (rest ++ late) } ha hn]
        exact ih (s := s.sendExtension (e.take a.bytes)) rfl h
      · rw [awaitExtension_commit a rest e { s with cmdAnswers := a :: rest } ha hn] at h
        obtain ⟨bytes, -, rfl⟩ := finishRead_next _ _ _ _ _ h
        exact absurd rfl ht
    · rw [awaitExtension_reject a rest e { s with cmdAnswers := a :: rest } ha] at h
      obtain rfl := Host.Outcome.next.inj h
      exact absurd rfl ht

/-- Late answers to the command on the port, or to those that follow it. -/
theorem step_late_of_command {s t : State} {early : List CmdAnswer} (hs : s.CommandOnPort)
    (h : step { s with cmdAnswers := early } = .next t) (ht : t.phase ≠ .idle) (late : List CmdAnswer) :
    step { t with cmdAnswers := late } = step { s with cmdAnswers := early ++ late } := by
  obtain ⟨lba, count, flag, k, hp⟩ := hs
  cases k with
  | blocks =>
    have hblocks := step_blocks (s := { s with cmdAnswers := early }) hp
    obtain rfl := Host.Outcome.next.inj (hblocks.symm.trans h)
    obtain ⟨hnone, hsame⟩ := awaitBlocks_waits ht
    obtain rfl : early = [] := hnone
    rw [hsame]
    rfl
  | extension e =>
    rw [step_awaitsExtension (s := { s with cmdAnswers := early }) hp] at h
    rw [awaitExtension_late hp h ht late, step_awaitsExtension (s := { s with cmdAnswers := early ++ late }) hp]

/-- A late answer to the `DevOpen` on the port. -/
theorem step_late_of_opening {s t : State} {early : List OpenAnswer} {path : Path}
    (hs : s.phase = .run (.opening path)) (h : step { s with openAnswers := early } = .next t) (ht : t.phase ≠ .idle)
    (late : List OpenAnswer) :
    step { t with openAnswers := late } = step { s with openAnswers := early ++ late } := by
  have hopening := step_opening (s := { s with openAnswers := early }) hs
  obtain rfl := Host.Outcome.next.inj (hopening.symm.trans h)
  obtain ⟨hnone, hsame⟩ := awaitOpen_waits ht
  obtain rfl : early = [] := hnone
  rw [hsame]
  rfl

/-! ### The host operations that wait -/

/-- Which host operation can wait for what: OPEN for its `DevOpen`, RDBLK for its command, a read for the commands of
its extension (10_state R47). -/
inductive WaitsFor : Instr → Running → Prop where
  | opening (path : Path) : WaitsFor (.openDev path) (.opening path)
  | blocks (lba count : Offset) (flag : Byte) (cdb : List Byte) :
      WaitsFor (.rdblk lba count flag) (.reading cdb .blocks)
  | extension (i : Instr) (vs : Byte) (offset : Offset) (len : Nat) (cdb : List Byte) (e : Extension)
      (hread : readOf i = some (vs, offset, len)) : WaitsFor i (.reading cdb (.extension e))

/-- A host operation that has not ended waits as it can. -/
theorem exec_waitsFor {s t : State} {i : Instr} {w : Running} (hi : ∀ f l c, i ≠ .read10 f l c)
    (h : exec i s = .next t) (hp : t.phase = .run w) : WaitsFor i w := by
  have hc := exec_case i s
  rw [h] at hc
  generalize hr : (Host.Outcome.next t : Result) = r at hc
  cases hc with
  | raises _ _ => cases hr; cases hp
  | encodes _ _ _ _ => cases hr; cases hp
  | changes _ _ _ => cases hr; cases hp
  | opens path _ =>
    cases hr
    obtain ⟨-, hsame⟩ := awaitOpen_waits (ne_idle_of_run hp)
    cases (congrArg State.phase hsame).symm.trans hp
    exact .opening path
  | sends lba count flag _ _ _ _ =>
    cases hr
    obtain ⟨-, hsame⟩ := awaitBlocks_waits (ne_idle_of_run hp)
    cases (congrArg State.phase hsame).symm.trans hp
    exact .blocks lba count flag _
  | reads _ form vs offset length hread =>
    obtain ⟨-, -, hend⟩ := read_next _ _ _ _ _ _ hr.symm
    cases hend with
    | waits _ _ _ hphase =>
      obtain ⟨cdb, e, he⟩ := hphase
      cases he.symm.trans hp
      exact .extension _ vs offset _ cdb e hread
    | failed _ _ _ _ _ hidle => cases hidle.symm.trans hp
    | done _ _ _ _ _ hidle => cases hidle.symm.trans hp
  | answers f l c => exact absurd rfl (hi f l c)

/-- Each of the eight is the shared read in one form, in every state. -/
theorem exec_eq_read {i : Instr} {vs : Byte} {offset : Offset} {len : Nat} (h : readOf i = some (vs, offset, len)) :
    ∃ form length, ∀ s, exec i s = s.read form vs offset length := by
  cases i with
  | enc | openDev | closeDev | rdblk | binit | derive | adv | read10 => cases h
  | rdb | txt | u8 | i8 | u16 | i16 | u32 | i32 => cases h; exact ⟨_, _, fun _ => rfl⟩

/-- An OPEN of a closed channel is the machine with its `DevOpen` on the port (41_device_channel R145). -/
theorem exec_openDev_eq_step {s : State} (path : Path) (ho : s.chOpen = false) :
    exec (.openDev path) s = step (s.sendOpen path) :=
  (exec_openDev_of_closed path ho).trans (step_opening rfl).symm

theorem exec_openDev_waits {s t : State} {path : Path} (h : exec (.openDev path) s = .next t) (ht : t.phase ≠ .idle) :
    s.chOpen = false := by
  refine Bool.eq_false_iff.2 fun ho => ?_
  obtain rfl := Host.Outcome.next.inj ((exec_openDev_of_open path ho).symm.trans h)
  exact ht rfl

/-- The command of an RDBLK, sent (41_device_channel R155). -/
def State.sendRdblk (s : State) (lba count : Offset) (flag : Byte) : State :=
  s.sendCommand (encodeCommand s.cfg.opc (BitVec.ofNat 32 lba.toNat) (BitVec.ofNat 16 count.toNat) flag)
    (count.toNat * s.cfg.bs) .blocks

/-- An RDBLK past both its checks is the machine with its command on the port (41_device_channel R155). -/
theorem exec_rdblk_eq_step {s : State} {lba count : Offset} (flag : Byte) (hin : commandInRange lba count = true)
    (ho : s.chOpen = true) : exec (.rdblk lba count flag) s = step (s.sendRdblk lba count flag) := by
  have hcount : (BitVec.ofNat 16 count.toNat).toNat = count.toNat := by
    obtain ⟨-, hle⟩ := (commandInRange_iff lba count).1 hin
    exact Nat.mod_eq_of_lt (Nat.lt_succ_of_le hle)
  rw [exec_rdblk_of_open flag hin ho, step_blocks (s := s.sendRdblk lba count flag) rfl, hcount]
  rfl

theorem exec_rdblk_waits {s t : State} {lba count : Offset} {flag : Byte} (h : exec (.rdblk lba count flag) s = .next t)
    (ht : t.phase ≠ .idle) : commandInRange lba count = true ∧ s.chOpen = true := by
  by_contra hfails
  cases hin : commandInRange lba count with
  | false =>
    obtain rfl := Host.Outcome.next.inj ((exec_rdblk_of_not_inRange flag hin).symm.trans h)
    exact ht rfl
  | true =>
    have hclosed : s.chOpen = false := Bool.eq_false_iff.2 fun ho => hfails ⟨hin, ho⟩
    obtain rfl := Host.Outcome.next.inj ((exec_rdblk_of_closed flag hin hclosed).symm.trans h)
    exact ht rfl

/-- A read past all its checks sends the first command of its extension (42_block_buffer R188). -/
theorem read_extends {s : State} {form : ReadForm} {vs : Byte} {offset length : Offset} {e : Extension}
    (hi : s.viewInRange vs = true) (hv : (s.view vs).valid = true)
    (he : e = s.extensionFor form ((s.view vs).rel.toNat + offset.toNat) length.toNat)
    (hs : e.start + e.len ≤ maxOffset) (hm : s.mlen.toNat < e.start + e.len)
    (hroom : s.mlen.toNat + e.n * s.cfg.bs ≤ arenaLimit s.cfg) (hlba : e.base + e.n - 1 ≤ maxLba)
    (ho : s.chOpen = true) : s.read form vs offset length = step (s.sendExtension e) := by
  rw [step_extension (s := s.sendExtension e) rfl]
  subst he
  simp only [State.extensionFor] at hs hm hroom hlba
  simp only [State.read, hi, hv, ho, Bool.not_true, Bool.false_eq_true, if_false, gt_iff_lt, Nat.not_lt.2 hs,
    (needsExtension_iff _ _).2 hm, if_true, Nat.not_lt.2 hroom, Nat.not_lt.2 hlba]
  rfl

/-- A read that waits is, whatever the tape, the machine with the first command of its extension on the port
(42_block_buffer R188). -/
theorem read_eq_step_of_waits {s t : State} {form : ReadForm} {vs : Byte} {offset length : Offset}
    {early : List CmdAnswer} (h : { s with cmdAnswers := early }.read form vs offset length = .next t)
    (ht : t.phase ≠ .idle) :
    ∃ e, ∀ tape, { s with cmdAnswers := tape }.read form vs offset length =
      step { s.sendExtension e with cmdAnswers := tape } := by
  have hc := read_cases { s with cmdAnswers := early } form vs offset length
  rw [h] at hc
  generalize hr : (Host.Outcome.next t : Result) = r at hc
  cases hc with
  | illegal _ => cases hr; exact absurd rfl ht
  | noView _ _ => cases hr; exact absurd rfl ht
  | bounds _ _ => cases hr; exact absurd rfl ht
  | closed _ _ _ => cases hr; exact absurd rfl ht
  | present _ _ _ _ =>
    obtain ⟨bytes, -, rfl⟩ := finishRead_next _ _ _ _ _ hr.symm
    exact absurd rfl ht
  | extends_ e hi hv he hs hm hroom hlba ho =>
    exact ⟨e, fun tape => read_extends (s := { s with cmdAnswers := tape }) hi hv he hs hm hroom hlba ho⟩

/-- A host operation that waits for the answer to a command does, on every tape, what the machine does with that
command on the port. -/
theorem exec_eq_step_of_reading {s t : State} {i : Instr} {early : List CmdAnswer} {cdb : List Byte}
    {k : Continuation} (hi : ∀ f l c, i ≠ .read10 f l c) (h : exec i { s with cmdAnswers := early } = .next t)
    (hp : t.phase = .run (.reading cdb k)) :
    ∃ u : State, u.CommandOnPort ∧
      ∀ tape, exec i { s with cmdAnswers := tape } = step { u with cmdAnswers := tape } := by
  have hbusy := ne_idle_of_run hp
  cases exec_waitsFor hi h hp with
  | blocks lba count flag _ =>
    obtain ⟨hin, ho⟩ := exec_rdblk_waits h hbusy
    exact ⟨s.sendRdblk lba count flag, ⟨_, _, _, _, rfl⟩,
      fun tape => exec_rdblk_eq_step (s := { s with cmdAnswers := tape }) flag hin ho⟩
  | extension _ vs offset _ _ _ hread =>
    obtain ⟨form, length, hexec⟩ := exec_eq_read hread
    obtain ⟨e, he⟩ := read_eq_step_of_waits ((hexec _).symm.trans h) hbusy
    exact ⟨s.sendExtension e, ⟨_, _, _, _, rfl⟩, fun tape => (hexec _).trans (he tape)⟩

/-- A host operation that waits for the answer to a `DevOpen` does, on every tape, what the machine does with that
`DevOpen` on the port. -/
theorem exec_eq_step_of_opening {s t : State} {i : Instr} {early : List OpenAnswer} {path : Path}
    (hi : ∀ f l c, i ≠ .read10 f l c) (h : exec i { s with openAnswers := early } = .next t)
    (hp : t.phase = .run (.opening path)) (tape : List OpenAnswer) :
    exec i { s with openAnswers := tape } = step { s.sendOpen path with openAnswers := tape } := by
  cases exec_waitsFor hi h hp with
  | opening =>
    have ho := exec_openDev_waits (s := { s with openAnswers := early }) h (ne_idle_of_run hp)
    exact exec_openDev_eq_step (s := { s with openAnswers := tape }) path ho

/-! ### Late answers -/

/-- Late answers to commands: the command stands on the port already, or is the first the accepted request sends. -/
theorem step_lateCommands {s t : State} {early : List CmdAnswer} {cdb : List Byte} {k : Continuation}
    (h : step { s with cmdAnswers := early } = .next t) (hp : t.phase = .run (.reading cdb k))
    (late : List CmdAnswer) :
    step { t with cmdAnswers := late } = step { s with cmdAnswers := early ++ late } := by
  have hbusy : t.phase ≠ .idle := ne_idle_of_run hp
  rcases step_cases _ _ h with
    ⟨hidle, -, rfl⟩ | ⟨path, hopen, rfl⟩ | ⟨hidle, w, rest, hreq, ⟨_, -, rfl⟩ | ⟨i, hd, hi, hexec⟩⟩
      | ⟨_, _, _, -, -, ⟨_, _, _, rfl⟩, hexec⟩
  · exact absurd hidle hbusy
  · obtain ⟨-, hsame⟩ := awaitOpen_waits hbusy
    rw [hsame, hopen] at hp
    cases hp
  · exact absurd rfl hbusy
  · obtain ⟨u, hu, heq⟩ := exec_eq_step_of_reading (s := { s with requests := rest }) hi hexec hp
    have hlate := step_late_of_command hu ((heq early).symm.trans hexec) hbusy late
    have hall := step_request (s := { s with cmdAnswers := early ++ late }) hidle hreq hd
    exact hlate.trans ((heq _).symm.trans hall.symm)
  · have hport : s.CommandOnPort := commandOnPort_of_read10 (s := { s with cmdAnswers := early }) hexec
    exact step_late_of_command hport h hbusy late

/-- A late answer to a `DevOpen`: it stands on the port already, or the accepted OPEN sends it. -/
theorem step_lateDevOpen {s t : State} {early : List OpenAnswer} {path : Path}
    (h : step { s with openAnswers := early } = .next t) (hp : t.phase = .run (.opening path))
    (late : List OpenAnswer) :
    step { t with openAnswers := late } = step { s with openAnswers := early ++ late } := by
  have hbusy : t.phase ≠ .idle := ne_idle_of_run hp
  rcases step_cases _ _ h with
    ⟨hidle, -, rfl⟩ | ⟨path', hopen, -⟩ | ⟨hidle, w, rest, hreq, ⟨_, -, rfl⟩ | ⟨i, hd, hi, hexec⟩⟩
      | ⟨_, _, _, hport, -, ⟨_, _, _, rfl⟩, hexec⟩
  · exact absurd hidle hbusy
  · exact step_late_of_opening hopen h hbusy late
  · exact absurd rfl hbusy
  · have heq := exec_eq_step_of_opening (s := { s with requests := rest }) hi hexec hp
    have hlate := step_late_of_opening rfl ((heq early).symm.trans hexec) hbusy late
    have hall := step_request (s := { s with openAnswers := early ++ late }) hidle hreq hd
    exact hlate.trans ((heq _).symm.trans hall.symm)
  · exact absurd hp (read10_ne_opening hport hexec path)

/-- Settles O30: late answers to commands and to a `DevOpen` are each taken as if they had been there. -/
theorem lateAnswersChangeNothing : Obligations.LateAnswersChangeNothing :=
  ⟨fun _ _ _ late _ _ h hp => step_lateCommands h hp late, fun _ _ _ late _ h hp => step_lateDevOpen h hp late⟩

end Sys2Proof.Machine

namespace Sys2Proof.Machine

/-! SUPPORT. Two forms that hand back the same response for the same bytes: a read that has ended does not tell them
apart, though one that waits records which of them it is (43_field_accessors R218). -/

/-- The two forms give the same response, whatever the record order and the bytes. -/
def ReadForm.SameResponse (f g : ReadForm) : Prop := ∀ o bytes, f.response o bytes = g.response o bytes

theorem ReadForm.SameResponse.symm {f g : ReadForm} (h : f.SameResponse g) : g.SameResponse f :=
  fun o bytes => (h o bytes).symm

/-- RDB and TXT both answer the raw bytes (43_field_accessors R218). -/
theorem ReadForm.text_sameResponse_bytes : ReadForm.text.SameResponse .bytes := fun _ _ => rfl

/-- The same extension, run for a read of form `f`. -/
def Extension.withForm (e : Extension) (f : ReadForm) : Extension := { e with form := f }

theorem finishRead_eq_of_sameResponse {f g : ReadForm} (hfg : f.SameResponse g) (s : State) (start len : Nat) :
    s.finishRead f start len = s.finishRead g start len := by
  simp only [State.finishRead, hfg _ _]

/-- An extension whose loop ends, ends in the same state when it runs for the other form: the commands are the same,
and the phase, the one place that records the form, is IDLE again. -/
theorem awaitExtension_withForm {f g : ReadForm} (hfg : f.SameResponse g) {tape : List CmdAnswer} {e : Extension}
    {s t : State} (h : State.awaitExtension tape (e.withForm f) (s.sendExtension (e.withForm f)) = .next t)
    (ht : t.phase = .idle) :
    State.awaitExtension tape (e.withForm g) (s.sendExtension (e.withForm g)) = .next t := by
  induction tape generalizing e s with
  | nil =>
    obtain rfl := Host.Outcome.next.inj h
    exact absurd ht (ne_idle_of_run rfl)
  | cons a rest ih =>
    by_cases ha : a.isBlock s.cfg.bs
    · by_cases hn : e.i + 1 < e.n
      · rw [awaitExtension_more a rest (e.withForm f) (s.sendExtension (e.withForm f)) ha hn] at h
        rw [awaitExtension_more a rest (e.withForm g) (s.sendExtension (e.withForm g)) ha hn]
        exact ih (e := e.take a.bytes) (s := { s.sendExtension (e.withForm f) with cmdAnswers := rest }) h
      · rw [awaitExtension_commit a rest (e.withForm f) (s.sendExtension (e.withForm f)) ha hn] at h
        rw [awaitExtension_commit a rest (e.withForm g) (s.sendExtension (e.withForm g)) ha hn]
        exact (finishRead_eq_of_sameResponse hfg.symm _ _ _).trans h
    · rw [awaitExtension_reject a rest (e.withForm f) (s.sendExtension (e.withForm f)) ha] at h
      rw [awaitExtension_reject a rest (e.withForm g) (s.sendExtension (e.withForm g)) ha]
      exact h

/-- The checks of a read do not look at its form, so a read that has ended is the read in the other form. -/
theorem read_next_of_sameResponse {f g : ReadForm} (hfg : f.SameResponse g) {s t : State} {vs : Byte}
    {offset length : Offset} (h : s.read f vs offset length = .next t) (ht : t.phase = .idle) :
    s.read g vs offset length = .next t := by
  simp only [State.read] at h ⊢
  split_ifs at h ⊢
  -- the six refusals of 60_exceptions R248, then the extension, then the bytes that are present
  iterate 6 exact h
  · exact awaitExtension_withForm hfg (e := s.extensionFor f _ _) h ht
  · exact (finishRead_eq_of_sameResponse hfg.symm s _ _).trans h

/-- Settles O31: TXT and RDB are one read in two forms that give the same response. -/
theorem txtReturnsWhatRdbReturns : Obligations.TxtReturnsWhatRdbReturns :=
  fun _ _ _ _ _ ht =>
    ⟨fun h => read_next_of_sameResponse ReadForm.text_sameResponse_bytes h ht,
      fun h => read_next_of_sameResponse ReadForm.text_sameResponse_bytes.symm h ht⟩

end Sys2Proof.Machine

namespace Sys2Proof.Machine

/-! SUPPORT. Exceptions: what a failure leaves as it was, and which statuses each operation can give. -/

/-! ### Only `Ok` changes the architectural state -/

/-- An `Ok` response and IDLE, or the architectural state of 10_state R30 as it was (60_exceptions R250). -/
def State.OkOrSameArch (s t : State) : Prop :=
  (∃ r, t.responses = s.responses ++ [r] ∧ r.status = .ok ∧ t.phase = .idle) ∨ s.sameArch t

theorem State.sameArch_refl (s : State) : s.sameArch s := ⟨rfl, rfl, rfl, rfl, rfl, rfl⟩

/-- Outside the arena a read, a command or an answer changes nothing of the architectural state. -/
theorem State.SameRest.sameArch {s t : State} (h : s.SameRest t) (hdata : t.data = s.data) (hmlen : t.mlen = s.mlen) :
    s.sameArch t :=
  ⟨h.chOpen, h.chPath, hdata, hmlen, h.abs, h.views⟩

namespace State.OkOrSameArch

variable {s t : State}

/-- An operation that fails, whatever it has sent or taken from the ports. -/
theorem raise {st : Status} (h : s.sameArch t) : s.OkOrSameArch (t.raise st) := .inr h

/-- An operation that answers `Ok`, whatever it has changed. -/
theorem succeed {payload : List Byte} (h : t.responses = s.responses) : s.OkOrSameArch (t.succeed payload) :=
  .inl ⟨_, congrArg (· ++ _) h, rfl, rfl⟩

/-- The answer to an outstanding `DevOpen`: only `Granted` opens the channel (41_device_channel R145, R146). -/
theorem awaitOpen (s : State) (path : Path) : s.OkOrSameArch (s.awaitOpen path) := by
  rcases awaitOpen_cases s path with ⟨-, hw⟩ | ⟨answer, rest, -, ha⟩
  · exact .inr (hw.symm ▸ s.sameArch_refl)
  · rw [ha]
    cases answer with
    | granted => exact succeed rfl
    | accessDenied => exact raise s.sameArch_refl
    | notFound => exact raise s.sameArch_refl
    | otherFailure => exact raise s.sameArch_refl

/-- The answer to the outstanding command of an RDBLK (41_device_channel R155, R156). -/
theorem awaitBlocks (s : State) (count : Nat) : s.OkOrSameArch (s.awaitBlocks count) := by
  rcases awaitBlocks_cases s count with ⟨-, hw⟩ | ⟨answer, rest, -, ⟨-, ha⟩ | ⟨-, ha⟩⟩
  · exact .inr (hw.symm ▸ s.sameArch_refl)
  · exact ha.symm ▸ succeed rfl
  · exact ha.symm ▸ raise s.sameArch_refl

/-- The extension loop commits its stage only where it answers `Ok` (42_block_buffer R189, R190). -/
theorem of_extensionEnd {form : ReadForm} (hrest : s.SameRest t) (h : ExtensionEnd s t form) : s.OkOrSameArch t := by
  cases h with
  | waits hdata hmlen _ _ => exact .inr (hrest.sameArch hdata hmlen)
  | failed hdata hmlen _ _ => exact .inr (hrest.sameArch hdata hmlen)
  | done _ _ _ _ hr hphase => exact .inl ⟨_, hr, ReadForm.response_status .., hphase⟩

theorem of_readEnd {form : ReadForm} (hrest : s.SameRest t) (h : ReadEnd s t form) : s.OkOrSameArch t := by
  cases h with
  | waits hdata hmlen _ _ => exact .inr (hrest.sameArch hdata hmlen)
  | failed _ _ hdata hmlen _ _ => exact .inr (hrest.sameArch hdata hmlen)
  | done _ _ _ _ hr hphase => exact .inl ⟨_, hr, ReadForm.response_status .., hphase⟩

/-- Whatever an operation comes to. -/
theorem of_exec {i : Instr} (h : exec i s = .next t) : s.OkOrSameArch t := by
  have hc := exec_case i s
  rw [h] at hc
  generalize hr : (Host.Outcome.next t : Result) = r at hc
  cases hc with
  | raises _ _ => cases hr; exact raise s.sameArch_refl
  | encodes _ _ _ _ => cases hr; exact succeed rfl
  | opens path _ => cases hr; exact awaitOpen (s.sendOpen path) path
  | sends _ _ _ _ _ n _ => cases hr; exact awaitBlocks (s.sendCommand _ _ .blocks) n
  | changes _ u hu => cases hr; exact succeed hu.responses
  | reads _ _ _ _ _ _ =>
    obtain ⟨hrest, -, hend⟩ := read_next _ _ _ _ _ _ hr.symm
    exact of_readEnd hrest hend
  | answers _ _ _ =>
    obtain ⟨-, rfl | ⟨e, he⟩⟩ := execRead10_next hr.symm
    · exact awaitBlocks s _
    · obtain ⟨hrest, -, hend⟩ := awaitExtension_next _ _ _ _ he
      exact of_extensionEnd hrest hend

theorem of_step (h : step s = .next t) : s.OkOrSameArch t := by
  rcases step_cases s t h with ⟨-, -, rfl⟩ | ⟨path, -, rfl⟩ |
    ⟨-, w, rest, -, ⟨_, -, rfl⟩ | ⟨i, -, -, he⟩⟩ | ⟨_, _, _, -, -, -, he⟩
  · exact .inr t.sameArch_refl
  · exact awaitOpen s path
  · exact raise s.sameArch_refl
  · exact of_exec (s := { s with requests := rest }) he
  · exact of_exec he

end State.OkOrSameArch

/-- Settles O36: what a step sends is appended to the trace, and each way an operation can end is an `Ok` or leaves the
architectural state. -/
theorem failuresArePrecise : Obligations.FailuresArePrecise := by
  intro s t h
  obtain ⟨sent, htrace, -⟩ := State.SendsReadCommands.of_step h
  exact ⟨⟨sent, htrace.symm⟩, State.OkOrSameArch.of_step h⟩

/-! ### The statuses of each operation (60_exceptions R253) -/

/-- The outcome of an operation run from `s`: a response it gives has its status in `row`. -/
def StatusIn (s : State) (row : List Status) (res : Result) : Prop :=
  ∀ t r, res = .next t → t.responses = s.responses ++ [r] → r.status ∈ row

namespace StatusIn

variable {s t u : State} {row : List Status}

/-- An outcome that gives one response has that response's status. -/
theorem answers {r : Response} (hr : t.responses = s.responses ++ [r]) (hrow : r.status ∈ row) :
    StatusIn s row (.next t) := by
  rintro _ r' ⟨⟩ hr'
  obtain rfl : r = r' := by simpa using hr.symm.trans hr'
  exact hrow

/-- An outcome that gives no response yet has no status. -/
theorem waits (hr : t.responses = s.responses) : StatusIn s row (.next t) := by
  rintro _ r' ⟨⟩ hr'
  simp [hr] at hr'

theorem raise {st : Status} (hr : u.responses = s.responses) (hrow : st ∈ row) : StatusIn s row (.next (u.raise st)) :=
  answers (congrArg (· ++ _) hr) hrow

theorem succeed {payload : List Byte} (hr : u.responses = s.responses) (hrow : .ok ∈ row) :
    StatusIn s row (.next (u.succeed payload)) :=
  answers (congrArg (· ++ _) hr) hrow

/-- A larger row. -/
theorem mono {row' : List Status} {res : Result} (h : StatusIn s row res) (hsub : row ⊆ row') : StatusIn s row' res :=
  fun t r ht hr => hsub (h t r ht hr)

/-- The four answers of `DevOpen` and the status each gives an OPEN (41_device_channel R145, R146). -/
theorem awaitOpen (s : State) (path : Path) :
    StatusIn s [.ok, .openFailed, .permissionDenied, .notFound] (.next (s.awaitOpen path)) := by
  rcases awaitOpen_cases s path with ⟨-, hw⟩ | ⟨answer, rest, -, ha⟩
  · exact hw.symm ▸ waits rfl
  · rw [ha]
    cases answer with
    | granted => exact succeed rfl (by decide)
    | accessDenied => exact raise rfl (by decide)
    | notFound => exact raise rfl (by decide)
    | otherFailure => exact raise rfl (by decide)

/-- The answer to a command is accepted or an `IOError` (41_device_channel R155, R156). -/
theorem awaitBlocks (s : State) (count : Nat) : StatusIn s [.ok, .ioError] (.next (s.awaitBlocks count)) := by
  rcases awaitBlocks_cases s count with ⟨-, hw⟩ | ⟨answer, rest, -, ⟨-, ha⟩ | ⟨-, ha⟩⟩
  · exact hw.symm ▸ waits rfl
  · exact ha.symm ▸ succeed rfl (by decide)
  · exact ha.symm ▸ raise rfl (by decide)

/-- An extension on the port ends with `Ok` or an `IOError` (42_block_buffer R189 to R191). -/
theorem awaitExtension (s : State) (tape : List CmdAnswer) (e : Extension) :
    StatusIn s [.ok, .ioError] (State.awaitExtension tape e s) := by
  intro t r h
  obtain ⟨-, -, hend⟩ := awaitExtension_next _ _ _ _ h
  cases hend with
  | waits _ _ hr _ => exact waits hr t r rfl
  | failed _ _ hr _ => exact answers hr (by decide) t r rfl
  | done _ _ _ _ hr _ => exact answers hr (by simp) t r rfl

/-- The refusals of a read in the order of 60_exceptions R248, and the `IOError` of its extension. -/
theorem read (s : State) (form : ReadForm) (vs : Byte) (offset length : Offset) :
    StatusIn s [.ok, .illegalRequest, .noView, .boundsError, .closed, .ioError] (s.read form vs offset length) := by
  intro t r h
  obtain ⟨-, -, hend⟩ := read_next _ _ _ _ _ _ h
  cases hend with
  | waits _ _ hr _ => exact waits hr t r rfl
  | failed st hst _ _ hr _ => exact answers hr (List.mem_cons_of_mem _ hst) t r rfl
  | done _ _ _ _ hr _ => exact answers hr (by simp) t r rfl

/-! #### The rows of the operations that are no read -/

theorem enc (s : State) (lba count : Offset) (flag : Byte) :
    StatusIn s [.ok, .boundsError] (execEnc lba count flag s) := by
  unfold execEnc
  split
  · exact succeed rfl (by decide)
  · exact raise rfl (by decide)

theorem openDev (s : State) (path : Path) :
    StatusIn s [.ok, .openFailed, .permissionDenied, .notFound] (execOpen path s) := by
  unfold execOpen
  split
  · exact raise rfl (by decide)
  · exact awaitOpen (s.sendOpen path) path

theorem closeDev (s : State) : StatusIn s [.ok, .closed] (execClose s) := by
  unfold execClose
  split
  · exact raise rfl (by decide)
  · exact succeed rfl (by decide)

theorem rdblk (s : State) (lba count : Offset) (flag : Byte) :
    StatusIn s [.ok, .boundsError, .closed, .ioError] (execRdblk lba count flag s) := by
  unfold execRdblk
  split
  · exact raise rfl (by decide)
  split
  · exact raise rfl (by decide)
  · exact (awaitBlocks (s.sendCommand _ _ .blocks) count.toNat).mono (by decide)

theorem binit (s : State) (vd : Byte) (anchor rel : Offset) :
    StatusIn s [.ok, .illegalRequest, .boundsError] (execBinit vd anchor rel s) := by
  unfold execBinit
  split
  · exact raise rfl (by decide)
  split
  · exact raise rfl (by decide)
  · exact succeed rfl (by decide)

theorem derive (s : State) (vd vs : Byte) (extra : Offset) :
    StatusIn s [.ok, .illegalRequest, .noView, .boundsError] (execDerive vd vs extra s) := by
  unfold execDerive
  split
  · exact raise rfl (by decide)
  split
  · exact raise rfl (by decide)
  split
  · exact raise rfl (by decide)
  · exact succeed rfl (by decide)

/-- ADV is DERIVE into its own source slot (42_block_buffer R177). -/
theorem adv (s : State) (vd : Byte) (delta : Offset) :
    StatusIn s [.ok, .illegalRequest, .noView, .boundsError] (execAdv vd delta s) :=
  (deriveIntoItsSourceIsAdvance s vd delta).subst (derive s vd vd delta)

/-- READ10 ends what waits on the port as the answer to a command does (log 8). -/
theorem read10 (s : State) (flag : Byte) (lba : Lba) (count : Count) :
    StatusIn s [.ok, .ioError] (execRead10 flag lba count s) := by
  intro t r h
  obtain ⟨-, rfl | ⟨e, he⟩⟩ := execRead10_next h
  · exact awaitBlocks s _ _ r rfl
  · exact awaitExtension s _ e t r he

end StatusIn

/-- Settles O38: row by row; the eight reads share the row of the one read they are. -/
theorem statusesOfEachOperation : Obligations.StatusesOfEachOperation := by
  intro i s t r h hr
  cases i with
  | enc lba count flag => exact StatusIn.enc s lba count flag t r h hr
  | openDev path => exact StatusIn.openDev s path t r h hr
  | closeDev => exact StatusIn.closeDev s t r h hr
  | rdblk lba count flag => exact StatusIn.rdblk s lba count flag t r h hr
  | binit vd anchor rel => exact StatusIn.binit s vd anchor rel t r h hr
  | derive vd vs extra => exact StatusIn.derive s vd vs extra t r h hr
  | adv vd delta => exact StatusIn.adv s vd delta t r h hr
  | rdb | u8 | i8 | u16 | i16 | u32 | i32 | txt => exact StatusIn.read s _ _ _ _ t r h hr
  | read10 flag lba count => exact StatusIn.read10 s flag lba count t r h hr

end Sys2Proof.Machine

namespace Sys2Proof.Machine

/-! SUPPORT. The request port: only an accepted request leaves it, and nothing in RUN looks at it. And reset as an
event. -/

/-! ### Waiting -/

/-- Settles O7: with no request, or no answer to the primitive on the device port, each step equation gives the state
itself. -/
theorem waitingLeavesTheStateAsItIs : Obligations.WaitingLeavesTheStateAsItIs := by
  refine ⟨fun s hp hr => step_noRequest hp hr, fun s path hp hnone => ?_, fun s lba count flag k hp hnone => ?_⟩
  · rw [step_opening hp, awaitOpen_unanswered path hnone]
  · cases k with
    | blocks => rw [step_blocks hp, awaitBlocks_unanswered _ hnone]
    | extension e => rw [step_awaitsExtension hp, hnone, awaitExtension_nil]

/-! ### Reset as an event -/

/-- Settles O14: the reset event is the reset state with the ports and the outputs kept (10_state R49, R51). -/
theorem hardResetSendsNothing : Obligations.HardResetSendsNothing :=
  fun s => ⟨(State.resetOf s.cfg).sameArch_refl, rfl, rfl, rfl⟩

/-! ### What stays on the request port -/

@[simp] theorem awaitOpen_requests (s : State) (path : Path) : (s.awaitOpen path).requests = s.requests := by
  rcases awaitOpen_cases s path with ⟨-, hw⟩ | ⟨answer, rest, -, ha⟩
  · rw [hw]
  · rw [ha]
    cases answer <;> rfl

@[simp] theorem awaitBlocks_requests (s : State) (count : Nat) : (s.awaitBlocks count).requests = s.requests := by
  rcases awaitBlocks_cases s count with ⟨-, hw⟩ | ⟨answer, rest, -, ⟨-, ha⟩ | ⟨-, ha⟩⟩
  · rw [hw]
  · rw [ha]; rfl
  · rw [ha]; rfl

theorem StateChange.requests {s t : State} {i : Instr} (h : StateChange s i t) : t.requests = s.requests := by
  cases h <;> rfl

/-- An operation takes nothing from the request port, whatever it comes to. -/
theorem exec_requests {s t : State} {i : Instr} (h : exec i s = .next t) : t.requests = s.requests := by
  have hc := exec_case i s
  rw [h] at hc
  generalize hr : (Host.Outcome.next t : Result) = r at hc
  cases hc with
  | raises _ _ => cases hr; rfl
  | encodes _ _ _ _ => cases hr; rfl
  | opens path _ => cases hr; exact awaitOpen_requests (s.sendOpen path) path
  | sends _ _ _ _ _ n _ => cases hr; exact awaitBlocks_requests (s.sendCommand _ _ .blocks) n
  | changes _ u hu => cases hr; exact hu.requests
  | reads _ _ _ _ _ _ =>
    obtain ⟨hrest, -, -⟩ := read_next _ _ _ _ _ _ hr.symm
    exact hrest.requests
  | answers _ _ _ =>
    obtain ⟨-, rfl | ⟨e, he⟩⟩ := execRead10_next hr.symm
    · exact awaitBlocks_requests s _
    · obtain ⟨hrest, -, -⟩ := awaitExtension_next _ _ _ _ he
      exact hrest.requests

/-- A step leaves the request port as it is or, in IDLE, takes its head (70_reset R290). -/
theorem step_requests {s t : State} (h : step s = .next t) :
    t.requests = s.requests ∨ (s.phase = .idle ∧ ∃ w, s.requests = w :: t.requests) := by
  rcases step_cases s t h with ⟨-, -, rfl⟩ | ⟨path, -, rfl⟩ |
    ⟨hidle, w, rest, hreq, ⟨_, -, rfl⟩ | ⟨i, -, -, hexec⟩⟩ | ⟨_, _, _, -, -, -, hexec⟩
  · exact .inl rfl
  · exact .inl (awaitOpen_requests s path)
  · exact .inr ⟨hidle, w, hreq⟩
  · have hrest : t.requests = rest := exec_requests hexec
    exact .inr ⟨hidle, w, hrest ▸ hreq⟩
  · exact .inl (exec_requests hexec)

/-! ### In RUN the request port is not looked at

The state `{ s with requests := q }` is `s` with the queue `q` at the request port; each operation that goes on in RUN
commutes with that change. -/

theorem awaitOpen_withRequests (s : State) (q : List (BitVec 160)) (path : Path) :
    { s with requests := q }.awaitOpen path = { s.awaitOpen path with requests := q } := by
  rcases awaitOpen_cases s path with ⟨hnone, hw⟩ | ⟨answer, rest, hanswers, ha⟩
  · rw [hw]
    exact awaitOpen_unanswered (s := { s with requests := q }) path hnone
  · rw [ha, awaitOpen_answered (s := { s with requests := q }) path hanswers]
    cases answer <;> rfl

theorem awaitBlocks_withRequests (s : State) (q : List (BitVec 160)) (count : Nat) :
    { s with requests := q }.awaitBlocks count = { s.awaitBlocks count with requests := q } := by
  rcases awaitBlocks_cases s count with ⟨hnone, hw⟩ | ⟨answer, rest, hanswers, ⟨hacc, ha⟩ | ⟨hacc, ha⟩⟩
  · rw [hw]
    exact awaitBlocks_unanswered (s := { s with requests := q }) count hnone
  · rw [ha]
    exact awaitBlocks_accepted (s := { s with requests := q }) hanswers ((answer.accepted_iff _).1 hacc)
  · rw [ha]
    exact awaitBlocks_rejected (s := { s with requests := q }) hanswers
      (mt (answer.accepted_iff _).2 (Bool.eq_false_iff.1 hacc))

theorem finishRead_withRequests {s t : State} {form : ReadForm} {start len : Nat}
    (h : s.finishRead form start len = .next t) (q : List (BitVec 160)) :
    { s with requests := q }.finishRead form start len = .next { t with requests := q } := by
  obtain ⟨bytes, hbytes, rfl⟩ := finishRead_next _ _ _ _ _ h
  simp only [State.finishRead, hbytes]
  rfl

/-- The extension loop reads the answers to its commands and the arena, never the request port. -/
theorem awaitExtension_withRequests {tape : List CmdAnswer} {e : Extension} {s t : State}
    (h : State.awaitExtension tape e s = .next t) (q : List (BitVec 160)) :
    State.awaitExtension tape e { s with requests := q } = .next { t with requests := q } := by
  induction tape generalizing e s with
  | nil =>
    obtain rfl := Host.Outcome.next.inj h
    rfl
  | cons a rest ih =>
    by_cases ha : a.isBlock s.cfg.bs
    · by_cases hn : e.i + 1 < e.n
      · rw [awaitExtension_more a rest e s ha hn] at h
        rw [awaitExtension_more a rest e { s with requests := q } ha hn]
        exact ih h
      · rw [awaitExtension_commit a rest e s ha hn] at h
        rw [awaitExtension_commit a rest e { s with requests := q } ha hn]
        exact finishRead_withRequests h q
    · rw [awaitExtension_reject a rest e s ha] at h
      rw [awaitExtension_reject a rest e { s with requests := q } ha]
      obtain rfl := Host.Outcome.next.inj h
      rfl

/-- A step with a command on the device port. -/
theorem step_withRequests_of_command {s t : State} (hs : s.CommandOnPort) (h : step s = .next t)
    (q : List (BitVec 160)) : step { s with requests := q } = .next { t with requests := q } := by
  obtain ⟨lba, count, flag, k, hp⟩ := hs
  cases k with
  | blocks =>
    obtain rfl := Host.Outcome.next.inj ((step_blocks hp).symm.trans h)
    rw [step_blocks (s := { s with requests := q }) hp, awaitBlocks_withRequests]
  | extension e =>
    rw [step_awaitsExtension hp] at h
    rw [step_awaitsExtension (s := { s with requests := q }) hp]
    exact awaitExtension_withRequests h q

/-- A step in RUN does the same whatever requests wait at the port (70_reset R290). -/
theorem step_withRequests_of_run {s t : State} (hbusy : s.phase ≠ .idle) (h : step s = .next t)
    (q : List (BitVec 160)) : step { s with requests := q } = .next { t with requests := q } := by
  rcases step_cases s t h with ⟨hidle, -, -⟩ | ⟨path, hopen, rfl⟩ | ⟨hidle, -⟩ |
    ⟨_, _, _, -, -, ⟨_, _, _, rfl⟩, hexec⟩
  · exact absurd hidle hbusy
  · rw [step_opening (s := { s with requests := q }) hopen, awaitOpen_withRequests]
  · exact absurd hidle hbusy
  · exact step_withRequests_of_command (commandOnPort_of_read10 hexec) h q

/-- Settles O9: what a step leaves on the port, and that a step in RUN does not look at it. -/
theorem requestsAreAcceptedOneAtATimeInOrder : Obligations.RequestsAreAcceptedOneAtATimeInOrder :=
  ⟨fun _ _ h => step_requests h, fun _ _ q hbusy h => step_withRequests_of_run hbusy h q⟩

end Sys2Proof.Machine
